-- ==== Sys2Proof/Word.lean ====
section
/-! DEFINITION. The byte and the 32-bit word of SC-CORE (00_scope.md R15, R17; 10_state.md R20). -/

namespace Sys2Proof

/-- A byte is 8 bits (R17). -/
abbrev Byte := BitVec 8

/-- A u32: an unsigned 32-bit word (R15, R20). -/
abbrev Word := BitVec 32

/-- A register file of sixteen 32-bit words, the shape of `S` and of `X` (R20, R26). -/
abbrev RegFile := Vector Word 16

end Sys2Proof
end

