-- ==== Sys2Proof/Config.lean ====
section
/-! DEFINITION. The static parameters of one SC-CORE (00_scope.md R12, R13), and the free values that
stand for the contents of registers the spec gives no value (10_state.md R34, R35; log entry 2). -/

namespace Sys2Proof

/-- `W`, the counter (backend) width: one of 16, 32, 64, 128 bits (R12). -/
inductive Width where
  | w16
  | w32
  | w64
  | w128
deriving DecidableEq, Repr

/-- The number of bits of a width. -/
def Width.bits : Width → Nat
  | .w16 => 16
  | .w32 => 32
  | .w64 => 64
  | .w128 => 128

/-- A byte order: the domain of `ORDER` and of `HOST_ORDER` (R12, R17). -/
inductive ByteOrder where
  | be
  | le
deriving DecidableEq, Repr

/-- The configuration record of R12 and R13: what is fixed when an instance is built. `K`, `B` and `P`
are derived from it (Machine/Flavor.lean), not free. -/
structure Params where
  /-- counter width -/
  W : Width
  /-- the designated byte order of the counter lane -/
  ORDER : ByteOrder
  /-- `LaneCount`, at least 1 -/
  N : Nat
  /-- the byte order of the sibling lanes -/
  HOST_ORDER : ByteOrder
  /-- width in bits of CF.CADD's `rhs`, at least 1 -/
  RW : Nat
deriving DecidableEq, Repr

/-- The 16-bit big-endian flavour of 90_conflicts.md C8 and 95_test_vectors.md V30, with `RW` at the
reference value 64 (R12). DESIGN CHOICE (log entry 1): the parameters are OPEN, and only
`State.reset` and `decodeTableWord`, which take no argument for them, name this record. -/
def Params.reference : Params :=
  { W := .w16, ORDER := .be, N := 8, HOST_ORDER := .le, RW := 64 }

namespace Config

/-- What `S[i]` holds after reset number `epoch` until a BC.NEW writes it: a free value (R34: it holds
no value, and must not be taken as zero; log entry 2, DESIGN CHOICE). -/
opaque unwrittenS : (epoch i : Nat) → Word

/-- What `ROUNDS` holds after reset until a BC.NEW writes it: a free value (R34, R35; log entry 2). -/
opaque unwrittenRounds : (epoch : Nat) → BitVec 8

/-- What `X[i]` holds after reset until U.LOAD writes it: a free value (R26, R35; log entry 2). -/
opaque unwrittenX : (epoch i : Nat) → Word

/-- What `CNT` holds after reset until a BC.GEN latches it: a free value (R27, R35; log entry 2). -/
opaque unwrittenCnt : (epoch : Nat) → BitVec 64

end Config

end Sys2Proof
end

