-- ==== Sys2Proof/Machine/Bytes.lean ====
section
/-! DEFINITION. Byte order (00_scope.md R17): little- and big-endian decode and encode, and the two
selected by an order. -/

namespace Sys2Proof

/-- `le(b) = Σ b[i] × 2^(8i)` (R17). -/
def le : List Byte → Nat
  | [] => 0
  | b :: bs => b.toNat + 2 ^ 8 * le bs

/-- `be(b) = Σ b[i] × 2^(8(n−1−i))` (R17). -/
def be : List Byte → Nat
  | [] => 0
  | b :: bs => b.toNat * 2 ^ (8 * bs.length) + be bs

/-- `to_le(v, n)`: byte `i` is `v[8i+7:8i]` (R17). -/
def toLe (v : Nat) : Nat → List Byte
  | 0 => []
  | n + 1 => BitVec.ofNat 8 v :: toLe (v / 2 ^ 8) n

/-- `to_be(v, n)`: byte `i` is `v[8(n−1−i)+7 : 8(n−1−i)]` (R17). -/
def toBe (v : Nat) : Nat → List Byte
  | 0 => []
  | n + 1 => BitVec.ofNat 8 (v / 2 ^ (8 * n)) :: toBe v n

/-- `dec(o, b)` (R17). -/
def decBytes (o : ByteOrder) (b : List Byte) : Nat :=
  match o with
  | .le => le b
  | .be => be b

/-- `enc(o, v, n)` (R17). -/
def encBytes (o : ByteOrder) (v n : Nat) : List Byte :=
  match o with
  | .le => toLe v n
  | .be => toBe v n

/-- `MemRead(BUF+off, n)` on an input buffer, whose bytes are those the host supplied with the command
(R18; 20_memory.md R50, R71). Every use is at a constant offset inside the buffer (R58). -/
def bufRead (buf : List Byte) (off n : Nat) : List Byte := (buf.drop off).take n

end Sys2Proof
end

