-- ==== Sys2Proof/Machine/Flavor.lean ====
section
/-! DEFINITION. What the configuration record determines: `K`, `B`, `P` (00_scope.md R12, 43_ctr_block_codec.md
R181), and which byte order a lane has (20_memory.md R55, R56). -/

namespace Sys2Proof

/-- The domain of R12: at least one lane, at least one bit of `rhs`. (`W`, `ORDER` and `HOST_ORDER`
are in their domains by their types.) -/
abbrev Params.WF (p : Params) : Prop := 1 ≤ p.N ∧ 1 ≤ p.RW

/-- `K = W/8`, bytes per lane (R12). -/
def Params.K (p : Params) : Nat := p.W.bits / 8

/-- `B = N × K`, bytes in one CTR block (R12). -/
def Params.B (p : Params) : Nat := p.N * p.K

/-- `P`, the index of the counter lane: the last lane for BE, the first for LE (R12, R181). -/
def Params.P (p : Params) : Nat :=
  match p.ORDER with
  | .be => p.N - 1
  | .le => 0

/-- The order lane `j` is written and read in: `ORDER` for the counter lane, `HOST_ORDER` for every
sibling (R55, R56). -/
def Params.laneOrder (p : Params) (j : Nat) : ByteOrder :=
  if j = p.P then p.ORDER else p.HOST_ORDER

/-- `2^W`, the modulus of every counter arithmetic (R16). -/
def Params.modulus (p : Params) : Nat := 2 ^ p.W.bits

/-- `ceil(RW/8)`, the bytes of `rhs` in a packet (30_encoding.md R80). -/
def Params.rhsBytes (p : Params) : Nat := (p.RW + 7) / 8

end Sys2Proof
end

