-- ==== Sys2Proof/Syntax.lean ====
section
/-! DEFINITION. The instructions of SC-CORE: the nine commands of 30_encoding.md R78 with the operand
records of R79, and the five micro-steps of R85. One constructor per row of opcode_table.json.

A byte-string operand carries its own length, so the `LEN` field of R79 is the string's length; integer
operands whose width is a parameter (`v`, `rhs`, the lanes) are natural numbers whose width WellFormed
checks (log entry 12). -/

namespace Sys2Proof

inductive Instr where
  /-- BC.NEW: `KEY_LEN`, `key`, `IV_LEN`, `iv`, `ROUNDS_IN` (R100). -/
  | bcNew (key iv : List Byte) (rounds : BitVec 8)
  /-- BC.GEN: `counter`, `OUT_LEN` (R101). -/
  | bcGen (counter : BitVec 64) (outLen : BitVec 16)
  /-- CF.DEF: no operand (R200). -/
  | cfDef
  /-- CF.FROMB: `v`, `W` bits (R201). -/
  | cfFromb (v : Nat)
  /-- CF.TOB: no operand (R202). -/
  | cfTob
  /-- CF.INC: no operand (R203). -/
  | cfInc
  /-- CF.CADD: `rhs`, `RW` bits (R204). -/
  | cfCadd (rhs : Nat)
  /-- CF.ENC: `lane[0]` to `lane[N-1]`, `W` bits each (R180). -/
  | cfEnc (lanes : List Nat)
  /-- CF.DEC: `BLK_LEN`, `block` (R185). -/
  | cfDec (block : List Byte)
  /-- U.LOAD, selected by `PH = 001` (R111). -/
  | uLoad
  /-- U.COL, selected by `PH = 010` (R112). -/
  | uCol
  /-- U.DIAG, selected by `PH = 011` (R113). -/
  | uDiag
  /-- U.FFWD, selected by `PH = 100` (R114). -/
  | uFfwd
  /-- U.SER, selected by `PH = 101` (R115). -/
  | uSer
deriving DecidableEq, Repr

/-- Whether an instruction is a command the host issues (R78) rather than a micro-step of the round
scheduler (R85). -/
def Instr.isCommand : Instr → Bool
  | .bcNew _ _ _ => true
  | .bcGen _ _ => true
  | .cfDef => true
  | .cfFromb _ => true
  | .cfTob => true
  | .cfInc => true
  | .cfCadd _ => true
  | .cfEnc _ => true
  | .cfDec _ => true
  | .uLoad => false
  | .uCol => false
  | .uDiag => false
  | .uFfwd => false
  | .uSer => false

end Sys2Proof
end

