-- ==== Sys2Proof/WellFormed.lean ====
section
/-! DEFINITION. Which terms of `Instr` are commands of a given configuration: the field widths of
30_encoding.md R79. A length that a command's own check faults (R232, R233, R237) or an illegal round
count (R234) is well formed: it is a command, and it raises its violation. -/

namespace Sys2Proof

/-- The operand record fits the widths of R79. -/
def Instr.wellFormed (p : Params) : Instr → Bool
  | .bcNew key iv _ => decide (key.length < 2 ^ 16) && decide (iv.length < 2 ^ 16)
  | .bcGen _ _ => true
  | .cfDef => true
  | .cfFromb v => decide (v < p.modulus)
  | .cfTob => true
  | .cfInc => true
  | .cfCadd rhs => decide (rhs < 2 ^ p.RW)
  | .cfEnc lanes => decide (lanes.length = p.N) && lanes.all (fun v => decide (v < p.modulus))
  | .cfDec block => decide (block.length < 2 ^ 16)
  | .uLoad => true
  | .uCol => true
  | .uDiag => true
  | .uFfwd => true
  | .uSer => true

end Sys2Proof
end

