-- ==== Sys2Proof/Decode.lean ====
section
/-! DEFINITION. The encodings of 30_encoding.md: the command word (R77, R78), the packet form of a command
(R79, R80), the micro-step codes (R85), the decoder, and after it the encoder, each written from the
tables of the spec. The decoder is total and rejects by name. -/

namespace Sys2Proof

/-- A code word of one of the two formats of opcode_table.json: `C8`, a command in its packet form
(R77, R80), or `U3`, the three bits of `PH` that select a micro-step (R85). -/
inductive CodeWord where
  | c8 (packet : List Byte)
  | u3 (code : BitVec 3)
deriving DecidableEq, Repr

/-- Why a code word names no instruction. -/
inductive DecodeError where
  /-- the command word is not in the table of R78: the violation `E_CMD` (R83, R238) -/
  | illegalCommand
  /-- a legal command word whose operand record is not of the length and widths of R79 and R80, or no
  command word at all: no command (log entry 5) -/
  | malformedPacket
  /-- `PH` codes 000 (IDLE), 110 and 111 name no micro-step (R85) -/
  | noMicroStep
deriving DecidableEq, Repr

/-- What a decoder answers. -/
inductive Decoded where
  | instr (i : Instr)
  | error (e : DecodeError)
deriving DecidableEq, Repr

/-- The nine commands (R78). -/
inductive Command where
  | bcNew
  | bcGen
  | cfDef
  | cfFromb
  | cfTob
  | cfInc
  | cfCadd
  | cfEnc
  | cfDec
deriving DecidableEq, Repr

/-- `CMD[7:4]`, the unit (R77). -/
def cmdUnit (cmd : Byte) : Nat := cmd.toNat / 16

/-- `CMD[3:0]`, the function within the unit (R77). -/
def cmdFn (cmd : Byte) : Nat := cmd.toNat % 16

/-- The command a command word names (R78); the other 247 values name none (R83). -/
def commandOf (cmd : Byte) : Option Command :=
  match cmdUnit cmd, cmdFn cmd with
  | 0, 1 => some .bcNew
  | 0, 2 => some .bcGen
  | 1, 0 => some .cfDef
  | 1, 1 => some .cfFromb
  | 1, 2 => some .cfTob
  | 1, 3 => some .cfInc
  | 1, 4 => some .cfCadd
  | 1, 5 => some .cfEnc
  | 1, 6 => some .cfDec
  | _, _ => none

/-- A byte-string field of `n` bytes, and the bytes after it (R80). -/
def takeBytes (n : Nat) (bs : List Byte) : Option (List Byte × List Byte) :=
  if n ≤ bs.length then some (bs.take n, bs.drop n) else none

/-- An integer field of `n` bytes, little-endian, and the bytes after it (R80). -/
def takeInt (n : Nat) (bs : List Byte) : Option (Nat × List Byte) :=
  (takeBytes n bs).map fun r => (le r.1, r.2)

/-- `count` integer fields of `n` bytes each: the lanes of CF.ENC (R80). -/
def takeInts (n : Nat) : (count : Nat) → List Byte → Option (List Nat × List Byte)
  | 0, bs => some ([], bs)
  | count + 1, bs =>
    (takeInt n bs).bind fun r =>
      (takeInts n count r.2).map fun q => (r.1 :: q.1, q.2)

/-- The operand record of a command (R79, R80), and the bytes after it. -/
def takeRecord (p : Params) (c : Command) (bs : List Byte) : Option (Instr × List Byte) :=
  match c with
  | .bcNew =>
    (takeInt 2 bs).bind fun keyLen =>
    (takeBytes keyLen.1 keyLen.2).bind fun key =>
    (takeInt 2 key.2).bind fun ivLen =>
    (takeBytes ivLen.1 ivLen.2).bind fun iv =>
    (takeInt 1 iv.2).map fun rounds =>
    (.bcNew key.1 iv.1 (BitVec.ofNat 8 rounds.1), rounds.2)
  | .bcGen =>
    (takeInt 8 bs).bind fun counter =>
    (takeInt 2 counter.2).map fun outLen =>
    (.bcGen (BitVec.ofNat 64 counter.1) (BitVec.ofNat 16 outLen.1), outLen.2)
  | .cfDef => some (.cfDef, bs)
  | .cfFromb => (takeInt p.K bs).map fun v => (.cfFromb v.1, v.2)
  | .cfTob => some (.cfTob, bs)
  | .cfInc => some (.cfInc, bs)
  | .cfCadd => (takeInt p.rhsBytes bs).map fun rhs => (.cfCadd rhs.1, rhs.2)
  | .cfEnc => (takeInts p.K p.N bs).map fun lanes => (.cfEnc lanes.1, lanes.2)
  | .cfDec =>
    (takeInt 2 bs).bind fun blkLen =>
    (takeBytes blkLen.1 blkLen.2).map fun block => (.cfDec block.1, block.2)

/-- A packet is the command word and then exactly its operand record (R77, R80). -/
def decodePacket (p : Params) : List Byte → Decoded
  | [] => .error .malformedPacket
  | cmd :: record =>
    match commandOf cmd with
    | none => .error .illegalCommand
    | some c =>
      match takeRecord p c record with
      | some (i, []) => if i.wellFormed p then .instr i else .error .malformedPacket
      | _ => .error .malformedPacket

/-- The micro-step a `PH` code selects (R85). -/
def decodeMicroStep (code : BitVec 3) : Decoded :=
  match code.toNat with
  | 1 => .instr .uLoad
  | 2 => .instr .uCol
  | 3 => .instr .uDiag
  | 4 => .instr .uFfwd
  | 5 => .instr .uSer
  | _ => .error .noMicroStep

/-- The decoder: every code word is an instruction or is rejected by name. -/
def decode (p : Params) : CodeWord → Decoded
  | .c8 packet => decodePacket p packet
  | .u3 code => decodeMicroStep code

/-- The encoder: the packet of a command (R78, R79, R80), the `PH` code of a micro-step (R85). -/
def encode (p : Params) : Instr → CodeWord
  | .bcNew key iv rounds =>
    .c8 (0x01#8 :: (toLe key.length 2 ++ key ++ toLe iv.length 2 ++ iv ++ toLe rounds.toNat 1))
  | .bcGen counter outLen => .c8 (0x02#8 :: (toLe counter.toNat 8 ++ toLe outLen.toNat 2))
  | .cfDef => .c8 [0x10#8]
  | .cfFromb v => .c8 (0x11#8 :: toLe v p.K)
  | .cfTob => .c8 [0x12#8]
  | .cfInc => .c8 [0x13#8]
  | .cfCadd rhs => .c8 (0x14#8 :: toLe rhs p.rhsBytes)
  | .cfEnc lanes => .c8 (0x15#8 :: lanes.flatMap fun v => toLe v p.K)
  | .cfDec block => .c8 (0x16#8 :: (toLe block.length 2 ++ block))
  | .uLoad => .u3 0b001#3
  | .uCol => .u3 0b010#3
  | .uDiag => .u3 0b011#3
  | .uFfwd => .u3 0b100#3
  | .uSer => .u3 0b101#3

/-- The least number of bytes an operand record can have (every `LEN` field zero). -/
def recordBytes (p : Params) : Command → Nat
  | .bcNew => 5
  | .bcGen => 10
  | .cfDef => 0
  | .cfFromb => p.K
  | .cfTob => 0
  | .cfInc => 0
  | .cfCadd => p.rhsBytes
  | .cfEnc => p.N * p.K
  | .cfDec => 2

/-- Append zero bytes up to a length. -/
def padZeros (n : Nat) (bs : List Byte) : List Byte := bs ++ List.replicate (n - bs.length) 0#8

/-- The code word that `nbits` bits of opcode_table.json stand for, the bits above them zero. The table
mixes the two formats and numbers both from 0: a word shorter than a byte is a `U3` row; a word of
whole bytes is a command packet, but for a first byte that names no command (R83) and is a micro-step
code (3, 4, 5), which only a `U3` row of the table has (log entry 8). -/
def tableCodeWord (p : Params) (nbits w : Nat) : CodeWord :=
  if nbits < 8 then .u3 (BitVec.ofNat 3 w)
  else
    match commandOf (BitVec.ofNat 8 w) with
    | some c => .c8 (padZeros (1 + recordBytes p c) (toLe w (nbits / 8)))
    | none => if w < 8 then .u3 (BitVec.ofNat 3 w) else .c8 (toLe w (nbits / 8))

/-- The instruction the decoder reads from `nbits` bits numbered as opcode_table.json numbers them, in
the reference configuration (log entries 1 and 8). -/
def decodeTableWord (nbits w : Nat) : Option Instr :=
  match decode Params.reference (tableCodeWord Params.reference nbits w) with
  | .instr i => some i
  | .error _ => none

end Sys2Proof
end

