-- ==== Sys2Proof/Machine/State.lean ====
section
/-! DEFINITION. The state of one SC-CORE (10_state.md R20 to R36), the host's side of its interface, and
the state after reset. Register names are the spec's. -/

namespace Sys2Proof.Machine

/-- `PH`, the scheduler's phase; the codes 110 and 111 are never taken (R28). -/
inductive Phase where
  | idle
  | load
  | col
  | diag
  | ffwd
  | ser
deriving DecidableEq, Repr

/-- The contract violations of 60_exceptions.md R231. -/
inductive Violation where
  | cmd
  | keyLen
  | ivLen
  | rounds
  | notKeyed
  | outLen
  | blkLen
deriving DecidableEq, Repr

/-- The payload of an `OK` response (30_encoding.md R84). -/
inductive Payload where
  | none
  /-- the bytes of `OUT` or of `BLKO` -/
  | bytes (bs : List Byte)
  /-- a `W`-bit value: `CTR`, or the sum of CF.CADD -/
  | value (v : Nat)
  /-- the decoded lanes, lane 0 first -/
  | lanes (vs : List Nat)
deriving DecidableEq, Repr

/-- The three kinds of response (R84). -/
inductive Response where
  | ok (payload : Payload)
  | noValue
  | fault (code : BitVec 4)
deriving DecidableEq, Repr

/-- A byte buffer as memory: (offset, byte) pairs, offsets strictly rising. An offset not listed has
not been written and reads as no value (log entry 10). -/
abbrev Memory := List Host.Cell

/-- Why the machine stops with a fault. The contract violations of the spec are none of these: they are
taken (R240). -/
inductive Fault where
  /-- Raised by CF.ENC on a term whose lane count is not `N`: an access to a lane the operand record
  does not have (R180: "The number of lanes is fixed at N by the operand record; it cannot be wrong").
  No packet decodes to such a term. Safe. -/
  | laneCount
deriving DecidableEq, Repr

/-- Why an instruction is refused. -/
inductive Refusal where
  /-- Raised by exec on an instruction that has no meaning yet. Safe. -/
  | notModelled (mnemonic : String)
  /-- Raised by every command while `PH ≠ IDLE`: "A command word presented while PH ≠ IDLE has no
  defined effect" (70_reset_and_hazards.md R271, 93 U12). The step never issues one then. Safe. -/
  | commandWhileBusy
  /-- Raised by the step on a packet that is no command: no command word, or an operand record that is
  not of the length and widths of R79 and R80. Safe (log entry 5). -/
  | malformedPacket
  /-- Raised by the step on a `PH` code that selects no micro-step (R85); no phase has one of these
  codes. Safe. -/
  | noMicroStep
deriving DecidableEq, Repr

/-- The state: the registers of 10_state.md, the output buffers of 20_memory.md R50, and the host's
side (the model's own fields, log entries 1, 3, 4, 9). -/
structure State where
  /-- the static parameters (R12), carried here because the interface's machine takes no argument; no
  step changes them (log entry 1) -/
  cfg : Params
  /-- the persistent state register file (R20) -/
  S : RegFile
  /-- the round count (R24) -/
  ROUNDS : BitVec 8
  /-- 1 when a BC.NEW has succeeded since reset (R25) -/
  KEYED : Bool
  /-- the working register file (R26) -/
  X : RegFile
  /-- the counter latch (R27) -/
  CNT : BitVec 64
  /-- the phase register (R28) -/
  PH : Phase
  /-- completed double-rounds (R28) -/
  DR : BitVec 4
  /-- the `W`-bit counter (R29); kept below `2^W` by `State.writeCtr` (log entry 12) -/
  CTR : Nat
  /-- the sticky fault flag (R30) -/
  ERR : Bool
  /-- the code of the violation that set `ERR`, 0 while `ERR = 0` (R30) -/
  ERRCODE : BitVec 4
  /-- the host's 64-byte output buffer (R50) -/
  OUT : Memory
  /-- the host's buffer for an encoded CTR block, `B` bytes (R50) -/
  BLKO : Memory
  /-- the packets of the commands the host will issue, in order (log entry 3) -/
  pending : List (List Byte)
  /-- the responses the host has received, oldest first (log entry 4) -/
  responses : List Response
  /-- the reset input at each coming step; absent means not applied (log entry 9) -/
  resetPin : List Bool
  /-- how many resets came before; selects the free values of unwritten registers (log entry 2) -/
  epoch : Nat
deriving DecidableEq, Repr

/-- The state after reset number `epoch` of an instance built with parameters `p` (R35, R260), with a
host that has issued and received nothing. -/
def State.resetOf (p : Params) (epoch : Nat) : State where
  cfg := p
  S := Vector.ofFn fun i : Fin 16 => Config.unwrittenS epoch i
  ROUNDS := Config.unwrittenRounds epoch
  KEYED := false
  X := Vector.ofFn fun i : Fin 16 => Config.unwrittenX epoch i
  CNT := Config.unwrittenCnt epoch
  PH := .idle
  DR := 0#4
  CTR := 0
  ERR := false
  ERRCODE := 0#4
  OUT := []
  BLKO := []
  pending := []
  responses := []
  resetPin := []
  epoch := epoch

/-- The machine right after reset (R35), in the reference configuration (log entry 1). -/
def State.reset : State := State.resetOf Params.reference 0

end Sys2Proof.Machine
end

