-- ==== Sys2Proof/Machine/Flags.lean ====
section
/-! DEFINITION. The flag-like values of SC-CORE (10_state.md R31): violation codes (60_exceptions.md R231), phase
codes (R28), the status byte and packet form of a response (30_encoding.md R84), the overflow detector
(44_counter_arith.md R204). There are no condition codes. -/

namespace Sys2Proof.Machine

/-- The code recorded in `ERRCODE` (R231); 0 means none. -/
def Violation.code : Violation → BitVec 4
  | .cmd => 1#4
  | .keyLen => 2#4
  | .ivLen => 3#4
  | .rounds => 4#4
  | .notKeyed => 5#4
  | .outLen => 6#4
  | .blkLen => 7#4

/-- The three bits of `PH` (R28, R85). -/
def Phase.code : Phase → BitVec 3
  | .idle => 0b000#3
  | .load => 0b001#3
  | .col => 0b010#3
  | .diag => 0b011#3
  | .ffwd => 0b100#3
  | .ser => 0b101#3

/-- The phase of a code; 110 and 111 are never taken (R28). -/
def Phase.ofCode (code : BitVec 3) : Option Phase :=
  match code.toNat with
  | 0 => some .idle
  | 1 => some .load
  | 2 => some .col
  | 3 => some .diag
  | 4 => some .ffwd
  | 5 => some .ser
  | _ => none

/-- The overflow detector: a value is representable in `W` bits (R204). -/
def fitsWidth (p : Params) (v : Nat) : Bool := decide (v ≤ p.modulus - 1)

/-- The status byte of a response (R84). -/
def Response.status : Response → Byte
  | .ok _ => 0x00#8
  | .noValue => 0x01#8
  | .fault code => 0x80#8 + code.setWidth 8

/-- A payload in packet form: values and lanes are `K` bytes little-endian, lane 0 first (R84). -/
def Payload.packet (p : Params) : Payload → List Byte
  | .none => []
  | .bytes bs => bs
  | .value v => toLe v p.K
  | .lanes vs => vs.flatMap fun v => toLe v p.K

/-- A response in packet form: the status byte, then the payload (R84). -/
def Response.packet (p : Params) : Response → List Byte
  | .ok payload => (Response.ok payload).status :: payload.packet p
  | .noValue => [Response.noValue.status]
  | .fault code => [(Response.fault code).status]

end Sys2Proof.Machine
end

