-- ==== Sys2Proof/Machine/Operands.lean ====
section
/-! DEFINITION. Operand assembly (30_encoding.md R81): byte strings to words, the counter's two halves, the
legal round counts, the quarter-round index groups (R86), the counter-width add (00_scope.md R16). -/

namespace Sys2Proof.Machine

/-- `LE32DEC`: four bytes to a word (42_feedforward_serializer.md R163). -/
def le32Dec (b : List Byte) : Word := BitVec.ofNat 32 (le b)

/-- `LE32ENC`: a word to four bytes (R166). -/
def le32Enc (w : Word) : List Byte := toLe w.toNat 4

/-- Word `i` of `KEY` or `IV`: its bytes `4i .. 4i+3`, little-endian (20_memory.md R52, R63). -/
def bufWord (buf : List Byte) (i : Nat) : Word := le32Dec (bufRead buf (4 * i) 4)

/-- `counter[31:0]`, which goes to word 12 (20_memory.md R54). -/
def counterLow (counter : BitVec 64) : Word := counter.extractLsb' 0 32

/-- `counter[63:32]`, which goes to word 13 (R54). -/
def counterHigh (counter : BitVec 64) : Word := counter.extractLsb' 32 32

/-- The legal values of `ROUNDS_IN`: 8, 12, 20 (R82). -/
def legalRounds (r : BitVec 8) : Bool := r == 8#8 || r == 12#8 || r == 20#8

/-- `ROUNDS/2`, the number of double-rounds (40_blockcore_construct_generate.md R102). -/
def doubleRoundCount (rounds : BitVec 8) : Nat := rounds.toNat / 2

/-- `addW(x, y) = (x + y) mod 2^W` (R16). -/
def addW (p : Params) (x y : Nat) : Nat := (x + y) % p.modulus

/-- The four word indices `(a, b, c, d)` of one quarter-round (R86). -/
structure Group where
  a : Fin 16
  b : Fin 16
  c : Fin 16
  d : Fin 16
deriving DecidableEq, Repr

/-- Column group `g`: `(g, 4+g, 8+g, 12+g)` (R86, R112). -/
def colGroup (g : Fin 4) : Group where
  a := Fin.ofNat 16 g
  b := Fin.ofNat 16 (4 + g)
  c := Fin.ofNat 16 (8 + g)
  d := Fin.ofNat 16 (12 + g)

/-- Diagonal group `g`: `(g, 4+((g+1) mod 4), 8+((g+2) mod 4), 12+((g+3) mod 4))` (R86, R113). -/
def diagGroup (g : Fin 4) : Group where
  a := Fin.ofNat 16 g
  b := Fin.ofNat 16 (4 + (g + 1) % 4)
  c := Fin.ofNat 16 (8 + (g + 2) % 4)
  d := Fin.ofNat 16 (12 + (g + 3) % 4)

/-- The column groups as the source lists them (R86, R102). -/
def colTable : List Group :=
  [⟨0, 4, 8, 12⟩, ⟨1, 5, 9, 13⟩, ⟨2, 6, 10, 14⟩, ⟨3, 7, 11, 15⟩]

/-- The diagonal groups as the source lists them (R86, R102). -/
def diagTable : List Group :=
  [⟨0, 5, 10, 15⟩, ⟨1, 6, 11, 12⟩, ⟨2, 7, 8, 13⟩, ⟨3, 4, 9, 14⟩]

/-- The `K` bytes of lane `j` in `BLKI` (R55, R63). -/
def laneChunk (p : Params) (block : List Byte) (j : Nat) : List Byte :=
  bufRead block (p.K * j) p.K

end Sys2Proof.Machine
end

