-- ==== Sys2Proof/Machine/QuarterRound.lean ====
section
/-! DEFINITION. The quarter-round mixing pipeline (41_quarter_round_pipeline.md): the add-rotate-xor stage, the
quarter-round, its stages and inverse, the column and diagonal rounds, the double-round. -/

namespace Sys2Proof.Machine

/-- `add32(x, y) = (x + y) mod 2^32` (00_scope.md R16). -/
def add32 (x y : Word) : Word := x + y

/-- `rotl(x, n) = ((x << n) mod 2^32) | (x >> (32 − n))`, `1 ≤ n ≤ 31` (R16). -/
def rotl (x : Word) (n : Nat) : Word := (x <<< n) ||| (x >>> (32 - n))

/-- `rotr(x, n) = rotl(x, 32 − n)` (R16). -/
def rotr (x : Word) (n : Nat) : Word := rotl x (32 - n)

/-- One stage `H(x, y, z, n)`, giving `(x', z')` (R130). -/
def hStage (x y z : Word) (n : Nat) : Word × Word :=
  let x' := add32 x y
  (x', rotl (z ^^^ x') n)

/-- The four words of a quarter-round. -/
structure Quad where
  a : Word
  b : Word
  c : Word
  d : Word
deriving DecidableEq, Repr

/-- The quarter-round `QR(a, b, c, d)` (R135). -/
def quarterRound (q : Quad) : Quad :=
  let s1 := hStage q.a q.b q.d 16
  let s2 := hStage q.c s1.2 q.b 12
  let s3 := hStage s1.1 s2.2 s1.2 8
  let s4 := hStage s2.1 s3.2 s2.2 7
  { a := s3.1, b := s4.2, c := s4.1, d := s3.2 }

/-- `QS1` (R136). -/
def qs1 (q : Quad) : Quad :=
  { q with a := add32 q.a q.b, d := rotl (q.d ^^^ add32 q.a q.b) 16 }

/-- `QS2` (R136). -/
def qs2 (q : Quad) : Quad :=
  { q with b := rotl (q.b ^^^ add32 q.c q.d) 12, c := add32 q.c q.d }

/-- `QS3` (R136). -/
def qs3 (q : Quad) : Quad :=
  { q with a := add32 q.a q.b, d := rotl (q.d ^^^ add32 q.a q.b) 8 }

/-- `QS4` (R136). -/
def qs4 (q : Quad) : Quad :=
  { q with b := rotl (q.b ^^^ add32 q.c q.d) 7, c := add32 q.c q.d }

/-- `QS1^-1` (R137). -/
def qs1Inv (q : Quad) : Quad := { q with a := q.a - q.b, d := rotr q.d 16 ^^^ q.a }

/-- `QS2^-1` (R137). -/
def qs2Inv (q : Quad) : Quad := { q with b := rotr q.b 12 ^^^ q.c, c := q.c - q.d }

/-- `QS3^-1` (R137). -/
def qs3Inv (q : Quad) : Quad := { q with a := q.a - q.b, d := rotr q.d 8 ^^^ q.a }

/-- `QS4^-1` (R137). -/
def qs4Inv (q : Quad) : Quad := { q with b := rotr q.b 7 ^^^ q.c, c := q.c - q.d }

/-- `QR^-1 = QS1^-1 ∘ QS2^-1 ∘ QS3^-1 ∘ QS4^-1`, a law for tests: SC-CORE does not implement it (R137). -/
def quarterRoundInv (q : Quad) : Quad := qs1Inv (qs2Inv (qs3Inv (qs4Inv q)))

/-- The four words of a register file that a group names (R135). -/
def readGroup (x : RegFile) (g : Group) : Quad :=
  { a := x[g.a], b := x[g.b], c := x[g.c], d := x[g.d] }

/-- Write a quarter-round's four results back to the same four registers (R135). -/
def writeGroup (x : RegFile) (g : Group) (q : Quad) : RegFile :=
  (((x.set g.a q.a).set g.b q.b).set g.c q.c).set g.d q.d

/-- The quarter-round on an index group of a register file (R135). -/
def mixGroup (x : RegFile) (g : Group) : RegFile := writeGroup x g (quarterRound (readGroup x g))

/-- The column round: `for g in 0..3`, the quarter-round on column group `g` (R112, R140). -/
def colRound (x : RegFile) : RegFile :=
  mixGroup (mixGroup (mixGroup (mixGroup x (colGroup 0)) (colGroup 1)) (colGroup 2)) (colGroup 3)

/-- The diagonal round: `for g in 0..3`, the quarter-round on diagonal group `g` (R113, R140). -/
def diagRound (x : RegFile) : RegFile :=
  mixGroup (mixGroup (mixGroup (mixGroup x (diagGroup 0)) (diagGroup 1)) (diagGroup 2)) (diagGroup 3)

/-- The double-round (R140). -/
def doubleRound (x : RegFile) : RegFile := diagRound (colRound x)

/-- `n` double-rounds, first to last (R101 step 2). -/
def doubleRounds : Nat → RegFile → RegFile
  | 0, x => x
  | n + 1, x => doubleRound (doubleRounds n x)

end Sys2Proof.Machine
end

