-- ==== Sys2Proof/Machine/Ops.lean ====
section
/-! DEFINITION. The named operations the meanings share: byte buffers, the response, taking a contract
violation, refusal while `ERR = 1`, issuing a command, the reset event, writing `CTR`, and the
register-file operations of a block generation. -/

namespace Sys2Proof.Machine

/-- What an instruction or a step answers. -/
abbrev Result := Host.Outcome State Fault Refusal

/-- The byte at an offset of a buffer; no value where nothing was written (log entry 10). -/
def Memory.read (m : Memory) (a : Nat) : Option Byte :=
  match m with
  | [] => none
  | c :: m => if c.1 = a then some c.2 else Memory.read m a

/-- Write one byte, keeping the offsets strictly rising. -/
def Memory.write (m : Memory) (a : Nat) (b : Byte) : Memory :=
  match m with
  | [] => [(a, b)]
  | c :: m =>
    if a < c.1 then (a, b) :: c :: m
    else if a = c.1 then (a, b) :: m
    else c :: Memory.write m a b

/-- `MemWrite(BUF+a, n, bs)` (00_scope.md R18): the bytes of `bs` at `a`, `a+1`, .... -/
def Memory.writeBytes (m : Memory) (a : Nat) : List Byte → Memory
  | [] => m
  | b :: bs => Memory.writeBytes (m.write a b) (a + 1) bs

/-- The canonical form: offsets strictly rising, so that equal buffers are equal lists. -/
abbrev Memory.wf (m : Memory) : Prop := (m.map Prod.fst).Pairwise (· < ·)

/-- Every listed offset is one the buffer has (20_memory.md R50). -/
abbrev Memory.within (m : Memory) (size : Nat) : Prop := ∀ c ∈ m, c.1 < size

/-- Return a response to the host (30_encoding.md R84). -/
def State.respond (s : State) (r : Response) : State :=
  { s with responses := s.responses ++ [r] }

/-- Contract-violation entry (60_exceptions.md R240): `ERR <- 1`, `ERRCODE <- c`, `FAULT(c)` returned,
and nothing else. -/
def State.violate (s : State) (v : Violation) : State :=
  ({ s with ERR := true, ERRCODE := v.code } : State).respond (.fault v.code)

/-- `raise ContractViolation(c)` (R240): the one exception of SC-CORE is taken, as a next state. There
is no return from it (R243) but the reset event, `applyReset`. -/
def raiseViolation (v : Violation) (s : State) : Result := .next (s.violate v)

/-- While `ERR = 1` every command changes nothing and returns `FAULT(ERRCODE)` (R242). -/
def refuseCommand (s : State) : Result := .next (s.respond (.fault s.ERRCODE))

/-- Issue a command. While `PH ≠ IDLE` it has no defined effect (70_reset_and_hazards.md R271); then
`ERR` is tested, before everything else of the command (R239, R242); then the command's own work. -/
def issue (s : State) (work : State → Result) : Result :=
  match s.PH with
  | .idle => if s.ERR then refuseCommand s else work s
  | .load => .refused .commandWhileBusy
  | .col => .refused .commandWhileBusy
  | .diag => .refused .commandWhileBusy
  | .ffwd => .refused .commandWhileBusy
  | .ser => .refused .commandWhileBusy

/-- The reset event (70_reset_and_hazards.md R260, R262), the only way out of a violation (R243): every
register at its value after reset, an unfinished BC.GEN abandoned with no response. The host's side is
the host's, not SC-CORE's, and stays. -/
def applyReset (s : State) : State :=
  { State.resetOf s.cfg (s.epoch + 1) with
    OUT := s.OUT
    BLKO := s.BLKO
    pending := s.pending
    responses := s.responses
    resetPin := s.resetPin }

/-- `CTR <- v`: the register has `W` bits (10_state.md R29). -/
def State.writeCtr (s : State) (v : Nat) : State := { s with CTR := v % s.cfg.modulus }

/-- The sixteen words BC.NEW loads (40_blockcore_construct_generate.md R100; 10_state.md R21, R22). -/
def keySchedule (key iv : List Byte) : RegFile :=
  #v[0x61707865#32, 0x3320646e#32, 0x79622d32#32, 0x6b206574#32,
     bufWord key 0, bufWord key 1, bufWord key 2, bufWord key 3,
     bufWord key 4, bufWord key 5, bufWord key 6, bufWord key 7,
     0#32, 0#32,
     bufWord iv 0, bufWord iv 1]

/-- The pre-mixing state: `S` with the counter in words 12 and 13 (10_state.md R27). -/
def premix (st : RegFile) (counter : BitVec 64) : RegFile :=
  (st.set 12 (counterLow counter)).set 13 (counterHigh counter)

/-- `X0` of the BC.GEN in progress (R27). -/
def State.X0 (s : State) : RegFile := premix s.S s.CNT

/-- Feed-forward: `X[i] <- add32(X[i], X0[i])` (42_feedforward_serializer.md R160). -/
def feedForward (x x0 : RegFile) : RegFile := Vector.ofFn fun i : Fin 16 => add32 x[i] x0[i]

/-- The keystream serializer: each word as four little-endian bytes, in word order (R165). -/
def serialize (x : RegFile) : List Byte := x.toList.flatMap le32Enc

/-- One half of a double-round at the command level: the quarter-round on each group of a table, in
the order the source lists them (40_blockcore_construct_generate.md R101 step 2, R102). -/
def tableRound (x : RegFile) (table : List Group) : RegFile := table.foldl mixGroup x

/-- `n` passes of the loop of R101 step 2: the column table, then the diagonal table. -/
def tableRounds : Nat → RegFile → RegFile
  | 0, x => x
  | n + 1, x => tableRounds n (tableRound (tableRound x colTable) diagTable)

/-- The bytes R101 returns for state words `st`, round count and counter: pre-mixing state, `ROUNDS/2`
double-rounds, feed-forward, serialization. -/
def blockBytes (st : RegFile) (rounds : BitVec 8) (counter : BitVec 64) : List Byte :=
  let x0 := premix st counter
  serialize (feedForward (tableRounds (doubleRoundCount rounds) x0) x0)

/-- `Block(key, iv, rounds, counter)` (R103). -/
def keystreamBlock (key iv : List Byte) (rounds : BitVec 8) (counter : BitVec 64) : List Byte :=
  blockBytes (keySchedule key iv) rounds counter

end Sys2Proof.Machine
end

