-- ==== Sys2Proof/Machine/BlockCore.lean ====
section
/-! DEFINITION. The BlockCore commands BC.NEW and BC.GEN (40_blockcore_construct_generate.md sections 1, 2). -/

namespace Sys2Proof.Machine

/-- BC.NEW (R100, R105): the three checks in operand order (R239), then `S`, `ROUNDS`, `KEYED`. -/
def execBcNew (key iv : List Byte) (rounds : BitVec 8) (s : State) : Result :=
  issue s fun s =>
    if key.length ≠ 32 then raiseViolation .keyLen s
    else if iv.length ≠ 8 then raiseViolation .ivLen s
    else if legalRounds rounds = false then raiseViolation .rounds s
    else
      .next (({ s with S := keySchedule key iv, ROUNDS := rounds, KEYED := true } : State).respond
        (.ok .none))

/-- BC.GEN (R101, R110): the two checks; then the counter is latched and the scheduler started. Its
response is returned by U.SER (R115). -/
def execBcGen (counter : BitVec 64) (outLen : BitVec 16) (s : State) : Result :=
  issue s fun s =>
    if s.KEYED = false then raiseViolation .notKeyed s
    else if outLen ≠ 64#16 then raiseViolation .outLen s
    else .next { s with CNT := counter, PH := .load }

/-- BC.GEN at the command level, whole in one step (R101). It is not what the machine runs: the
statements compare the scheduler's run with it (R118). -/
def genCommand (counter : BitVec 64) (outLen : BitVec 16) (s : State) : Result :=
  issue s fun s =>
    if s.KEYED = false then raiseViolation .notKeyed s
    else if outLen ≠ 64#16 then raiseViolation .outLen s
    else
      let block := blockBytes s.S s.ROUNDS counter
      .next (({ s with OUT := s.OUT.writeBytes 0 block } : State).respond (.ok (.bytes block)))

end Sys2Proof.Machine
end

