-- ==== Sys2Proof/Machine/Codec.lean ====
section
/-! DEFINITION. The CTR block encoder and decoder of CounterFlavor (43_ctr_block_codec.md). -/

namespace Sys2Proof.Machine

/-- The bytes lane `j` takes in the block: the counter lane holds `addW(CTR, lane[P])` in `ORDER`, a
sibling its value in `HOST_ORDER` (R180). -/
def encodeLane (p : Params) (ctr : Nat) (j v : Nat) : List Byte :=
  encBytes (p.laneOrder j) (if j = p.P then addW p ctr v else v) p.K

/-- Lanes `j`, `j+1`, ... of the block, each after the one before it: lane `j` is at bytes
`K·j .. K·j+K−1` (R180, 20_memory.md R55). -/
def encodeLanesFrom (p : Params) (ctr : Nat) : (j : Nat) → List Nat → List Byte
  | _, [] => []
  | j, v :: vs => encodeLane p ctr j v ++ encodeLanesFrom p ctr (j + 1) vs

/-- The encoded CTR block (R180). -/
def encodeBlock (p : Params) (ctr : Nat) (lanes : List Nat) : List Byte :=
  encodeLanesFrom p ctr 0 lanes

/-- The decoded lanes of a block (R185). -/
def decodeBlock (p : Params) (block : List Byte) : List Nat :=
  (List.range p.N).map fun j => decBytes (p.laneOrder j) (laneChunk p block j)

/-- CF.ENC (R180): no check of its own, `CTR` not changed. -/
def execCfEnc (lanes : List Nat) (s : State) : Result :=
  issue s fun s =>
    if lanes.length = s.cfg.N then
      .next (({ s with BLKO := s.BLKO.writeBytes 0 (encodeBlock s.cfg s.CTR lanes) } : State).respond
        (.ok (.bytes (encodeBlock s.cfg s.CTR lanes))))
    else .fault .laneCount

/-- CF.DEC (R185): a pure function of the block and the parameters. -/
def execCfDec (block : List Byte) (s : State) : Result :=
  issue s fun s =>
    if block.length ≠ s.cfg.B then raiseViolation .blkLen s
    else .next (s.respond (.ok (.lanes (decodeBlock s.cfg block))))

end Sys2Proof.Machine
end

