-- ==== Sys2Proof/Machine/Counter.lean ====
section
/-! DEFINITION. The counter commands of CounterFlavor (44_counter_arith.md). None raises a violation of its own. -/

namespace Sys2Proof.Machine

/-- CF.DEF (R200). -/
def execCfDef (s : State) : Result :=
  issue s fun s => .next ((s.writeCtr 0).respond (.ok .none))

/-- CF.FROMB (R201). -/
def execCfFromb (v : Nat) (s : State) : Result :=
  issue s fun s => .next ((s.writeCtr v).respond (.ok .none))

/-- CF.TOB (R202). -/
def execCfTob (s : State) : Result :=
  issue s fun s => .next (s.respond (.ok (.value s.CTR)))

/-- CF.INC (R203): the response carries the new value. -/
def execCfInc (s : State) : Result :=
  issue s fun s =>
    .next ((s.writeCtr (addW s.cfg s.CTR 1)).respond (.ok (.value (addW s.cfg s.CTR 1))))

/-- CF.CADD (R204): both tests over the natural numbers, `rhs` not truncated; `CTR` keeps its value. -/
def execCfCadd (rhs : Nat) (s : State) : Result :=
  issue s fun s =>
    if fitsWidth s.cfg rhs = false then .next (s.respond .noValue)
    else if fitsWidth s.cfg (s.CTR + rhs) = false then .next (s.respond .noValue)
    else .next (s.respond (.ok (.value (s.CTR + rhs))))

end Sys2Proof.Machine
end

