-- ==== Sys2Proof/Machine/Scheduler.lean ====
section
/-! DEFINITION. The micro-steps of the round scheduler (40_blockcore_construct_generate.md section 3). They are not
commands: the step runs the one `PH` names (R110), and they test neither `ERR` nor `PH`. -/

namespace Sys2Proof.Machine

/-- U.LOAD (R111). -/
def execULoad (s : State) : Result :=
  .next { s with X := premix s.S s.CNT, DR := 0#4, PH := .col }

/-- U.COL (R112). -/
def execUCol (s : State) : Result :=
  .next { s with X := colRound s.X, PH := .diag }

/-- The phase after a diagonal round that leaves `dr` completed double-rounds: the loop test of R113. -/
def afterDiag (dr : BitVec 4) (rounds : BitVec 8) : Phase :=
  if dr.toNat = doubleRoundCount rounds then .ffwd else .col

/-- U.DIAG (R113). -/
def execUDiag (s : State) : Result :=
  .next { s with
    X := diagRound s.X
    DR := s.DR + 1#4
    PH := afterDiag (s.DR + 1#4) s.ROUNDS }

/-- U.FFWD (R114, 42_feedforward_serializer.md R160, R161). -/
def execUFfwd (s : State) : Result :=
  .next { s with X := feedForward s.X s.X0, PH := .ser }

/-- U.SER (R115, 42_feedforward_serializer.md R165): fills `OUT` and returns the block. -/
def execUSer (s : State) : Result :=
  .next (({ s with
    OUT := s.OUT.writeBytes 0 (serialize s.X)
    DR := 0#4
    PH := .idle } : State).respond (.ok (.bytes (serialize s.X))))

end Sys2Proof.Machine
end

