-- ==== Sys2Proof/Machine/Dispatch.lean ====
section
/-! DEFINITION. What each instruction does: one arm per constructor, each a call of its meaning. -/

namespace Sys2Proof.Machine

def exec (i : Instr) (s : State) : Host.Outcome State Fault Refusal :=
  match i with
  | .bcNew key iv rounds => Sys2Proof.Machine.execBcNew key iv rounds s
  | .bcGen counter outLen => Sys2Proof.Machine.execBcGen counter outLen s
  | .cfDef => Sys2Proof.Machine.execCfDef s
  | .cfFromb v => Sys2Proof.Machine.execCfFromb v s
  | .cfTob => Sys2Proof.Machine.execCfTob s
  | .cfInc => Sys2Proof.Machine.execCfInc s
  | .cfCadd rhs => Sys2Proof.Machine.execCfCadd rhs s
  | .cfEnc lanes => Sys2Proof.Machine.execCfEnc lanes s
  | .cfDec block => Sys2Proof.Machine.execCfDec block s
  | .uLoad => Sys2Proof.Machine.execULoad s
  | .uCol => Sys2Proof.Machine.execUCol s
  | .uDiag => Sys2Proof.Machine.execUDiag s
  | .uFfwd => Sys2Proof.Machine.execUFfwd s
  | .uSer => Sys2Proof.Machine.execUSer s

end Sys2Proof.Machine
end

