-- ==== Sys2Proof/Machine/Fetch.lean ====
section
/-! DEFINITION. Where the next instruction comes from (log entry 3): the reset input first (70_reset_and_hazards.md
R260, R262); then, while a BC.GEN is in progress, the phase register (R110); then, with `PH = IDLE`,
the host's next packet; with none, SC-CORE is idle (60_exceptions.md R255). -/

namespace Sys2Proof.Machine

/-- What the next step has to do, and the state it starts from. -/
inductive Fetched where
  | reset (s : State)
  | idle (s : State)
  | word (w : CodeWord) (s : State)

/-- The reset input of this step is taken. -/
def State.dropPin (s : State) : State := { s with resetPin := s.resetPin.tail }

/-- Whether the reset event is applied at this step. -/
def State.resetAsserted (s : State) : Bool := s.resetPin.headD false

/-- The code word the scheduler's phase or the host's next packet gives. -/
def fetchWord (s : State) : Fetched :=
  match s.PH with
  | .idle =>
    match s.pending with
    | [] => .idle s
    | packet :: rest => .word (.c8 packet) { s with pending := rest }
  | .load => .word (.u3 Phase.load.code) s
  | .col => .word (.u3 Phase.col.code) s
  | .diag => .word (.u3 Phase.diag.code) s
  | .ffwd => .word (.u3 Phase.ffwd.code) s
  | .ser => .word (.u3 Phase.ser.code) s

/-- Fetch. -/
def fetch (s : State) : Fetched :=
  if s.resetAsserted then .reset s.dropPin else fetchWord s.dropPin

/-- What the step does with a code word the decoder rejects: an unassigned command word is the
violation `E_CMD`, tested after `ERR` (30_encoding.md R83; 60_exceptions.md R238, R239); the others are
no instruction. -/
def rejectWord (e : DecodeError) (s : State) : Result :=
  match e with
  | .illegalCommand => issue s (raiseViolation .cmd)
  | .malformedPacket => .refused .malformedPacket
  | .noMicroStep => .refused .noMicroStep

/-- Place a code word where the next step fetches it. -/
def State.placeWord (s : State) (w : CodeWord) : State :=
  match w with
  | .c8 packet => { s with resetPin := [], PH := .idle, pending := packet :: s.pending }
  | .u3 code => { s with resetPin := [], PH := (Phase.ofCode code).getD s.PH }

end Sys2Proof.Machine
end

