-- ==== Sys2Proof/Machine/Step.lean ====
section
/-! DEFINITION. One step: the reset event, or the instruction fetched, or nothing while idle. -/

namespace Sys2Proof.Machine

/-- One step of the machine. -/
def step (s : State) : Host.Outcome State Fault Refusal :=
  match fetch s with
  | .reset t => .next (applyReset t)
  | .idle t => .next t
  | .word w t =>
    match decode t.cfg w with
    | .instr i => exec i t
    | .error e => rejectWord e t

/-- `s` with the instruction of a table word stored where `step` fetches next: a command as the host's
next packet with `PH = IDLE`, a micro-step as the phase; no reset applied (log entries 3 and 8). -/
def State.withFetchWord (s : State) (nbits w : Nat) : State :=
  s.placeWord (tableCodeWord s.cfg nbits w)

end Sys2Proof.Machine
end

