-- ==== Sys2Proof/Machine/Pseudo.lean ====
section
/-! DEFINITION. The pseudo-commands of 30_encoding.md R89. None has a code of its own: each is what the host does
with commands and their responses. -/

namespace Sys2Proof.Machine

/-- The response a command has just returned. -/
def State.lastResponse (s : State) : Option Response := s.responses.getLast?

/-- `CF.SEEK rhs=r`: CF.CADD, then CF.FROMB with the sum if the response is `OK`, nothing if it is
`NOVALUE` (R89). -/
def cfSeek (rhs : Nat) (s : State) : Result :=
  match exec (.cfCadd rhs) s with
  | .next t =>
    match t.lastResponse with
    | some (.ok (.value v)) => exec (.cfFromb v) t
    | _ => .next t
  | .fault f => .fault f
  | .refused r => .refused r

/-- `BC.BLOCK n`: BC.GEN with counter `n` (R89), the output buffer of 64 bytes. -/
def bcBlock (n : BitVec 64) (s : State) : Result := exec (.bcGen n 64#16) s

/-- `CF.NEXT`: CF.INC (R89). -/
def cfNext (s : State) : Result := exec .cfInc s

end Sys2Proof.Machine
end

