-- ==== Sys2Proof/Safety.lean ====
section
/-! DEFINITION. What the statements say of states and runs: a state ready for a command, the invariant of
10_state.md (R23, R24, R27 to R30) with the scheduler's progress (40_blockcore_construct_generate.md R110
to R116), and what a safe step is. -/

namespace Sys2Proof.Machine

/-- SC-CORE can perform a command: no BC.GEN in progress (R271) and no violation recorded (R242). -/
abbrev State.ready (s : State) : Prop := s.PH = .idle ∧ s.ERR = false

/-- A BC.GEN can be in progress only on a loaded BlockCore with no violation (R101). -/
abbrev State.generating (s : State) : Prop := s.KEYED = true ∧ s.ERR = false

/-- What `S` and `ROUNDS` hold once `KEYED = 1` (R22, R23, R24). -/
structure State.KeyedState (s : State) : Prop where
  const0 : s.S[0] = 0x61707865#32
  const1 : s.S[1] = 0x3320646e#32
  const2 : s.S[2] = 0x79622d32#32
  const3 : s.S[3] = 0x6b206574#32
  counterLow : s.S[12] = 0#32
  counterHigh : s.S[13] = 0#32
  rounds : s.ROUNDS = 8#8 ∨ s.ROUNDS = 12#8 ∨ s.ROUNDS = 20#8

/-- `ERRCODE` is the code of a violation while `ERR = 1` and 0 while `ERR = 0` (R30, R231). -/
def State.ErrState (s : State) : Prop :=
  (s.ERR = true → 1 ≤ s.ERRCODE.toNat ∧ s.ERRCODE.toNat ≤ 7) ∧ (s.ERR = false → s.ERRCODE = 0#4)

/-- How far a BC.GEN has come, phase by phase: `DR` double-rounds of the `ROUNDS/2` are done and `X` is
what they make of `X0` (R28, R111 to R116). -/
def State.Progress (s : State) : Prop :=
  match s.PH with
  | .idle => s.DR = 0#4
  | .load => s.generating ∧ s.DR = 0#4
  | .col =>
    s.generating ∧ s.DR.toNat < doubleRoundCount s.ROUNDS ∧ s.X = doubleRounds s.DR.toNat s.X0
  | .diag =>
    s.generating ∧ s.DR.toNat < doubleRoundCount s.ROUNDS ∧
      s.X = colRound (doubleRounds s.DR.toNat s.X0)
  | .ffwd =>
    s.generating ∧ s.DR.toNat = doubleRoundCount s.ROUNDS ∧ s.X = doubleRounds s.DR.toNat s.X0
  | .ser =>
    s.generating ∧ s.DR.toNat = doubleRoundCount s.ROUNDS ∧
      s.X = feedForward (doubleRounds s.DR.toNat s.X0) s.X0

/-- The output buffers are in canonical form and hold no byte outside their sizes (20_memory.md R50). -/
structure State.Buffers (s : State) : Prop where
  outWf : s.OUT.wf
  outWithin : s.OUT.within 64
  blkoWf : s.BLKO.wf
  blkoWithin : s.BLKO.within s.cfg.B

/-- The invariant every step keeps. -/
structure State.Inv (s : State) : Prop where
  params : s.cfg.WF
  counter : s.CTR < s.cfg.modulus
  keyed : s.KEYED = true → s.KeyedState
  err : s.ErrState
  progress : s.Progress
  buffers : s.Buffers

/-- A safe answer of a step: a next state, or the refusal of a packet that is no command. -/
def SafeAnswer (o : Result) : Prop :=
  match o with
  | .next _ => True
  | .fault _ => False
  | .refused r => r = .malformedPacket

/-- `s` after a contract violation of code `c`: `ERR`, `ERRCODE` and the `FAULT` response, nothing else
(R240). -/
def State.faultedWith (s : State) (c : BitVec 4) : State :=
  { s with ERR := true, ERRCODE := c, responses := s.responses ++ [.fault c] }

/-- `s` after a command turned away because `ERR = 1`: the `FAULT` response with the stored code, nothing
else (R242). -/
def State.turnedAway (s : State) : State :=
  { s with responses := s.responses ++ [.fault s.ERRCODE] }

/-- An instruction executed `n` times in a row, stopping where it stops. -/
def execTimes (i : Instr) : Nat → State → Result
  | 0, s => .next s
  | n + 1, s =>
    match exec i s with
    | .next t => execTimes i n t
    | .fault f => .fault f
    | .refused r => .refused r

/-- `s` with the BlockCore registers of `u` (00_scope.md R2, 10_state.md R36). -/
def State.withBlockCoreOf (s u : State) : State :=
  { s with S := u.S, ROUNDS := u.ROUNDS, KEYED := u.KEYED, X := u.X, CNT := u.CNT, DR := u.DR, OUT := u.OUT }

/-- `s` with the CounterFlavor register and block buffer of `u`. -/
def State.withCounterOf (s u : State) : State := { s with CTR := u.CTR, BLKO := u.BLKO }

/-- Whether an instruction is one of CounterFlavor (command unit 1, R77). -/
def ofCounterFlavor : Instr → Bool
  | .bcNew _ _ _ => false
  | .bcGen _ _ => false
  | .cfDef => true
  | .cfFromb _ => true
  | .cfTob => true
  | .cfInc => true
  | .cfCadd _ => true
  | .cfEnc _ => true
  | .cfDec _ => true
  | .uLoad => false
  | .uCol => false
  | .uDiag => false
  | .uFfwd => false
  | .uSer => false

/-- An answer's next state changed by `f`; a stop stays as it is. -/
def Result.mapNext (f : State → State) (o : Result) : Result :=
  match o with
  | .next t => .next (f t)
  | .fault r => .fault r
  | .refused r => .refused r

end Sys2Proof.Machine
end

