-- ==== Sys2Proof/Certificates/Slice0/Obligations.lean ====
section
/-! DEFINITION. The statements for the provers, from the numbered rules of the spec. Results are written as
equations of the whole next state, so that a statement's frame is everything its right side does not
change. The response list, the packet list, the reset input and the configuration inside the state are the
model's own fields (log entries 1, 3, 4, 9). -/

open Sys2Proof Sys2Proof.Machine

/-! ### Reset -/

/-- 70_reset_and_hazards.md R260, R262; 10_state.md R35: when the reset event is applied, in whatever
phase and with whatever violation recorded, the step gives the state after reset, an unfinished BC.GEN
gets no response and `OUT` is not written. That the host's fields stay is the model's (log entry 9). -/
def Obligations.ResetEventRestoresResetState : Prop :=
  ∀ (s : State) (pins : List Bool), s.resetPin = true :: pins →
    ∃ t, step s = .next t ∧ t.KEYED = false ∧ t.ERR = false ∧ t.ERRCODE = 0#4 ∧ t.PH = .idle ∧
      t.DR = 0#4 ∧ t.CTR = 0 ∧ t.responses = s.responses ∧ t.OUT = s.OUT ∧ t.BLKO = s.BLKO ∧
      t.pending = s.pending ∧ t.resetPin = pins ∧ t.cfg = s.cfg

/-- R35, R23, R30: the state after reset, of every configuration and after every number of resets, meets
the invariant, holds no key and no violation, and its counter is zero; the machine's reset state, of the
reference configuration (log entry 1), is one of them. -/
def Obligations.ResetStateMeetsInvariant : Prop :=
  (∀ (p : Params) (e : Nat), p.WF →
    (State.resetOf p e).Inv ∧ (State.resetOf p e).ready ∧ (State.resetOf p e).KEYED = false ∧
      (State.resetOf p e).CTR = 0) ∧
  State.reset.Inv ∧ State.reset.ready

/-! ### BlockCore commands -/

/-- R100, R105, R21, R22, R52: BC.NEW with legal operands, keyed before or not, loads the constants, the
little-endian key words, zero counter words and the little-endian IV words, and changes nothing else. -/
def Obligations.BcNewLoadsState : Prop :=
  ∀ (s : State) (key iv : List Byte) (r : BitVec 8), s.ready → key.length = 32 → iv.length = 8 →
    (r = 8#8 ∨ r = 12#8 ∨ r = 20#8) →
    ∃ t, exec (.bcNew key iv r) s = .next t ∧
      t = { s with
        S := t.S, ROUNDS := r, KEYED := true, responses := s.responses ++ [.ok .none] } ∧
      t.S[0] = 0x61707865#32 ∧ t.S[1] = 0x3320646e#32 ∧ t.S[2] = 0x79622d32#32 ∧
      t.S[3] = 0x6b206574#32 ∧ t.S[12] = 0#32 ∧ t.S[13] = 0#32 ∧
      (∀ i, i < 8 → (t.S[4 + i]?).map BitVec.toNat =
        some ((key.getD (4 * i) 0#8).toNat + 2 ^ 8 * (key.getD (4 * i + 1) 0#8).toNat +
          2 ^ 16 * (key.getD (4 * i + 2) 0#8).toNat + 2 ^ 24 * (key.getD (4 * i + 3) 0#8).toNat)) ∧
      (∀ i, i < 2 → (t.S[14 + i]?).map BitVec.toNat =
        some ((iv.getD (4 * i) 0#8).toNat + 2 ^ 8 * (iv.getD (4 * i + 1) 0#8).toNat +
          2 ^ 16 * (iv.getD (4 * i + 2) 0#8).toNat + 2 ^ 24 * (iv.getD (4 * i + 3) 0#8).toNat))

/-- R100, R232, R233, R234, R239: the violations of BC.NEW, tested in operand order; only `ERR`,
`ERRCODE` and the response change (R240). -/
def Obligations.BcNewFaultsInOrder : Prop :=
  ∀ (s : State) (key iv : List Byte) (r : BitVec 8), s.ready →
    (key.length ≠ 32 → exec (.bcNew key iv r) s = .next (s.faultedWith 2#4)) ∧
    (key.length = 32 → iv.length ≠ 8 → exec (.bcNew key iv r) s = .next (s.faultedWith 3#4)) ∧
    (key.length = 32 → iv.length = 8 → r ≠ 8#8 → r ≠ 12#8 → r ≠ 20#8 →
      exec (.bcNew key iv r) s = .next (s.faultedWith 4#4))

/-- R101, R110: BC.GEN with a loaded BlockCore and a 64-byte buffer latches the counter and starts the
scheduler; it changes nothing else and returns no response yet. -/
def Obligations.BcGenStartsScheduler : Prop :=
  ∀ (s : State) (counter : BitVec 64), s.ready → s.KEYED = true →
    exec (.bcGen counter 64#16) s = .next { s with CNT := counter, PH := .load }

/-- R101, R235, R236, R239: the violations of BC.GEN, `KEYED` tested before the buffer length. -/
def Obligations.BcGenFaultsInOrder : Prop :=
  ∀ (s : State) (counter : BitVec 64) (outLen : BitVec 16), s.ready →
    (s.KEYED = false → exec (.bcGen counter outLen) s = .next (s.faultedWith 5#4)) ∧
    (s.KEYED = true → outLen ≠ 64#16 →
      exec (.bcGen counter outLen) s = .next (s.faultedWith 6#4))

/-! ### Micro-steps -/

/-- R111, R54, R85: U.LOAD, selected by 001, copies `S` to `X` with the counter's low half in word 12 and
its high half in word 13, clears `DR`, and goes to COL; nothing else changes. -/
def Obligations.ULoadBuildsPremixState : Prop :=
  ∀ s : State, decode s.cfg (.u3 0b001#3) = .instr .uLoad ∧ ∃ t, exec .uLoad s = .next t ∧
    t = { s with X := t.X, DR := 0#4, PH := .col } ∧
    t.X[12].toNat = s.CNT.toNat % 2 ^ 32 ∧ t.X[13].toNat = s.CNT.toNat / 2 ^ 32 ∧
    ∀ i, i < 16 → i ≠ 12 → i ≠ 13 → t.X[i]? = s.S[i]?

/-- R112, R86, R85: U.COL, selected by 010, applies the quarter-round to each of the four column groups of
the source and goes to DIAG; nothing else changes. -/
def Obligations.UColMixesColumns : Prop :=
  ∀ s : State, decode s.cfg (.u3 0b010#3) = .instr .uCol ∧ ∃ t, exec .uCol s = .next t ∧
    t = { s with X := t.X, PH := .diag } ∧
    ∀ g ∈ colTable, readGroup t.X g = quarterRound (readGroup s.X g)

/-- R113, R86, R85: U.DIAG, selected by 011, applies the quarter-round to each of the four diagonal groups,
counts the double-round, and goes to FFWD when `ROUNDS/2` are done, else to COL; nothing else changes. -/
def Obligations.UDiagMixesDiagonals : Prop :=
  ∀ s : State, decode s.cfg (.u3 0b011#3) = .instr .uDiag ∧ ∃ t, exec .uDiag s = .next t ∧
    t = { s with
      X := t.X
      DR := s.DR + 1#4
      PH := if (s.DR + 1#4).toNat = s.ROUNDS.toNat / 2 then .ffwd else .col } ∧
    ∀ g ∈ diagTable, readGroup t.X g = quarterRound (readGroup s.X g)

/-- R114, R160, R161, R85: U.FFWD, selected by 100, adds the pre-mixing state word by word modulo 2^32, the
counter's halves in words 12 and 13 and not the zeros of `S`, and goes to SER; nothing else changes. -/
def Obligations.UFfwdAddsPremixState : Prop :=
  ∀ s : State, decode s.cfg (.u3 0b100#3) = .instr .uFfwd ∧ ∃ t, exec .uFfwd s = .next t ∧
    t = { s with X := t.X, PH := .ser } ∧
    t.X[12].toNat = (s.X[12].toNat + s.CNT.toNat % 2 ^ 32) % 2 ^ 32 ∧
    t.X[13].toNat = (s.X[13].toNat + s.CNT.toNat / 2 ^ 32) % 2 ^ 32 ∧
    ∀ i x y, i ≠ 12 → i ≠ 13 → s.X[i]? = some x → s.S[i]? = some y →
      (t.X[i]?).map BitVec.toNat = some ((x.toNat + y.toNat) % 2 ^ 32)

/-- R115, R165, R53, R85: U.SER, selected by 101, returns sixty-four bytes, byte `4i+j` being bits
`8j+7:8j` of `X[i]`, leaves them in `OUT`, clears `DR` and goes to IDLE; every other byte and register is
unchanged. -/
def Obligations.USerSerializesLittleEndian : Prop :=
  ∀ s : State, decode s.cfg (.u3 0b101#3) = .instr .uSer ∧ ∃ t bs, exec .uSer s = .next t ∧
    t = { s with
      OUT := t.OUT, DR := 0#4, PH := .idle, responses := s.responses ++ [.ok (.bytes bs)] } ∧
    bs.length = 64 ∧
    (∀ i j x, j < 4 → s.X[i]? = some x →
      bs[4 * i + j]? = some (BitVec.ofNat 8 (x.toNat / 2 ^ (8 * j)))) ∧
    ∀ a, t.OUT.read a = if a < 64 then bs[a]? else s.OUT.read a

/-! ### The quarter-round -/

/-- R135: the quarter-round is the twelve statements of the source, with addition modulo 2^32 and left
rotation by 16, 12, 8 and 7; on an index group of a register file its four results go back to the same
four registers, and every other register keeps its value. -/
def Obligations.QuarterRoundIsTheSourceSequence : Prop :=
  (∀ a b c d : Word,
    let a₁ := a + b
    let d₁ := (d ^^^ a₁).rotateLeft 16
    let c₁ := c + d₁
    let b₁ := (b ^^^ c₁).rotateLeft 12
    let a₂ := a₁ + b₁
    let d₂ := (d₁ ^^^ a₂).rotateLeft 8
    let c₂ := c₁ + d₂
    let b₂ := (b₁ ^^^ c₂).rotateLeft 7
    quarterRound { a := a, b := b, c := c, d := d } = { a := a₂, b := b₂, c := c₂, d := d₂ }) ∧
  ∀ (x : RegFile) (g : Group), g ∈ colTable ++ diagTable →
    readGroup (mixGroup x g) g = quarterRound (readGroup x g) ∧
    ∀ i : Fin 16, i ≠ g.a → i ≠ g.b → i ≠ g.c → i ≠ g.d → (mixGroup x g)[i] = x[i]

/-- R136, R137: the quarter-round is its four stages in order, and a bijection whose inverse is the
inverse stages in the opposite order. -/
def Obligations.QuarterRoundIsBijective : Prop :=
  ∀ q : Quad, quarterRound q = qs4 (qs3 (qs2 (qs1 q))) ∧
    quarterRoundInv (quarterRound q) = q ∧ quarterRound (quarterRoundInv q) = q

/-- R141, R112: the four quarter-rounds of a column round, and of a diagonal round, may be done in any
order. -/
def Obligations.QuarterRoundOrderIsImmaterial : Prop :=
  ∀ (x : RegFile) (l : List Group),
    (l.Perm colTable → l.foldl mixGroup x = colRound x) ∧
    (l.Perm diagTable → l.foldl mixGroup x = diagRound x)

/-! ### Counter commands -/

/-- R200: CF.DEF is command word `0x10`; with no violation recorded it sets the counter to zero, answers
`OK` and changes nothing else; with one, it is turned away. -/
def Obligations.CfDefClearsCounter : Prop :=
  ∀ s : State, s.PH = .idle →
    encode s.cfg .cfDef = .c8 [0x10#8] ∧
    (s.ERR = true → exec .cfDef s = .next s.turnedAway) ∧
    (s.ERR = false →
      exec .cfDef s = .next { s with CTR := 0, responses := s.responses ++ [.ok .none] })

/-- R201: CF.FROMB is command word `0x11` and a `W`-bit operand; with no violation recorded it loads any
`W`-bit value and changes nothing else; with one, it is turned away. -/
def Obligations.CfFrombLoadsCounter : Prop :=
  ∀ (s : State) (v : Nat), s.PH = .idle → v < 2 ^ s.cfg.W.bits →
    (∃ vb, encode s.cfg (.cfFromb v) = .c8 (0x11#8 :: vb) ∧ vb.length = s.cfg.W.bits / 8 ∧ le vb = v) ∧
    (s.ERR = true → exec (.cfFromb v) s = .next s.turnedAway) ∧
    (s.ERR = false →
      exec (.cfFromb v) s = .next { s with CTR := v, responses := s.responses ++ [.ok .none] })

/-- R202: CF.TOB is command word `0x12`; with no violation recorded it returns the counter and changes
nothing, so that after CF.FROMB `v` it returns `v`; with one, it is turned away. -/
def Obligations.CfTobReturnsCounter : Prop :=
  ∀ s : State, s.PH = .idle →
    encode s.cfg .cfTob = .c8 [0x12#8] ∧
    (s.ERR = true → exec .cfTob s = .next s.turnedAway) ∧
    (s.ERR = false →
      exec .cfTob s = .next { s with responses := s.responses ++ [.ok (.value s.CTR)] } ∧
      ∀ v, v < 2 ^ s.cfg.W.bits → ∃ t u, exec (.cfFromb v) s = .next t ∧ exec .cfTob t = .next u ∧
        u.responses = t.responses ++ [.ok (.value v)])

/-- R203: CF.INC is command word `0x13`; with no violation recorded it adds one modulo `2^W`, returns the
new value, and changes nothing else; with one, it is turned away. -/
def Obligations.CfIncWraps : Prop :=
  ∀ s : State, s.PH = .idle →
    encode s.cfg .cfInc = .c8 [0x13#8] ∧
    (s.ERR = true → exec .cfInc s = .next s.turnedAway) ∧
    (s.ERR = false →
      exec .cfInc s = .next { s with
        CTR := (s.CTR + 1) % 2 ^ s.cfg.W.bits
        responses := s.responses ++ [.ok (.value ((s.CTR + 1) % 2 ^ s.cfg.W.bits))] })

/-- R204, R244: CF.CADD is command word `0x14`; with no violation recorded it returns the sum exactly when
`rhs` and the sum fit in `W` bits and `NOVALUE` otherwise, for every natural `rhs`, and changes nothing,
the counter and `ERR` included; with one, it is turned away. -/
def Obligations.CfCaddDetectsOverflow : Prop :=
  ∀ (s : State) (rhs : Nat), s.PH = .idle →
    (∃ rb, encode s.cfg (.cfCadd rhs) = .c8 (0x14#8 :: rb)) ∧
    (s.ERR = true → exec (.cfCadd rhs) s = .next s.turnedAway) ∧
    (s.ERR = false → rhs ≤ 2 ^ s.cfg.W.bits - 1 → s.CTR + rhs ≤ 2 ^ s.cfg.W.bits - 1 →
      exec (.cfCadd rhs) s =
        .next { s with responses := s.responses ++ [.ok (.value (s.CTR + rhs))] }) ∧
    (s.ERR = false → (rhs > 2 ^ s.cfg.W.bits - 1 ∨ s.CTR + rhs > 2 ^ s.cfg.W.bits - 1) →
      exec (.cfCadd rhs) s = .next { s with responses := s.responses ++ [.noValue] })

/-- R205: `n` CF.INCs leave `(c + n) mod 2^W`, and `2^W` of them leave the counter as it was. -/
def Obligations.IncrementsWrapToClosure : Prop :=
  ∀ s : State, s.ready → s.CTR < 2 ^ s.cfg.W.bits →
    (∀ n, ∃ t, execTimes .cfInc n s = .next t ∧
      t = { s with CTR := (s.CTR + n) % 2 ^ s.cfg.W.bits, responses := t.responses }) ∧
    ∃ t, execTimes .cfInc (2 ^ s.cfg.W.bits) s = .next t ∧ t.CTR = s.CTR

/-- R206: below the largest value CF.INC leaves what CF.CADD 1 returns; at the largest value CF.INC gives
0 and CF.CADD 1 gives `NOVALUE`. -/
def Obligations.IncrementAgainstCheckedAdd : Prop :=
  ∀ s : State, s.ready →
    (s.CTR < 2 ^ s.cfg.W.bits - 1 → ∃ t u, exec .cfInc s = .next t ∧
      exec (.cfCadd 1) s = .next u ∧ u.responses = s.responses ++ [.ok (.value t.CTR)]) ∧
    (s.CTR = 2 ^ s.cfg.W.bits - 1 → ∃ t u, exec .cfInc s = .next t ∧ t.CTR = 0 ∧
      exec (.cfCadd 1) s = .next u ∧ u.responses = s.responses ++ [.noValue])

/-- R89: CF.SEEK moves the counter by `rhs` when the sum fits in `W` bits and leaves it when it does not;
BC.BLOCK is BC.GEN with a 64-byte buffer, CF.NEXT is CF.INC. -/
def Obligations.SeekAddsOrRefuses : Prop :=
  ∀ (s : State) (rhs : Nat) (n : BitVec 64), s.ready →
    (s.CTR + rhs < 2 ^ s.cfg.W.bits → cfSeek rhs s = .next { s with
      CTR := s.CTR + rhs
      responses := s.responses ++ [.ok (.value (s.CTR + rhs)), .ok .none] }) ∧
    (2 ^ s.cfg.W.bits ≤ s.CTR + rhs →
      cfSeek rhs s = .next { s with responses := s.responses ++ [.noValue] }) ∧
    bcBlock n s = exec (.bcGen n 64#16) s ∧ cfNext s = exec .cfInc s

/-! ### The CTR block -/

/-- R180, R181, R55, R56: CF.ENC is command word `0x15`; with no violation recorded it returns a block of
`N·K` bytes whose lane `j` is the lane in `HOST_ORDER`, but for the counter lane (the last for BE, the
first for LE), which is `CTR + lane` modulo `2^W` in `ORDER`; it leaves the block in `BLKO` and changes
nothing else; with a violation recorded it is turned away. -/
def Obligations.CfEncBuildsBlock : Prop :=
  ∀ (s : State) (lanes : List Nat), s.PH = .idle → lanes.length = s.cfg.N →
    (∃ lb, encode s.cfg (.cfEnc lanes) = .c8 (0x15#8 :: lb)) ∧
    (s.ERR = true → exec (.cfEnc lanes) s = .next s.turnedAway) ∧
    (s.ERR = false → ∃ t bs, exec (.cfEnc lanes) s = .next t ∧
      t = { s with BLKO := t.BLKO, responses := s.responses ++ [.ok (.bytes bs)] } ∧
      bs.length = s.cfg.N * (s.cfg.W.bits / 8) ∧
      (∀ j v, lanes[j]? = some v →
        (j = (match s.cfg.ORDER with | .be => s.cfg.N - 1 | .le => 0) →
          (bs.drop (s.cfg.W.bits / 8 * j)).take (s.cfg.W.bits / 8) =
            encBytes s.cfg.ORDER ((s.CTR + v) % 2 ^ s.cfg.W.bits) (s.cfg.W.bits / 8)) ∧
        (j ≠ (match s.cfg.ORDER with | .be => s.cfg.N - 1 | .le => 0) →
          (bs.drop (s.cfg.W.bits / 8 * j)).take (s.cfg.W.bits / 8) =
            encBytes s.cfg.HOST_ORDER v (s.cfg.W.bits / 8))) ∧
      ∀ a, t.BLKO.read a = if a < s.cfg.N * (s.cfg.W.bits / 8) then bs[a]? else s.BLKO.read a)

/-- A term of CF.ENC whose lane count is not `N` is no command of the configuration (R180) and stops with
the model's fault (log entry 13). -/
def Obligations.CfEncLaneCountStops : Prop :=
  ∀ (s : State) (lanes : List Nat), s.ready → lanes.length ≠ s.cfg.N →
    exec (.cfEnc lanes) s = .fault .laneCount

/-- R185, R181: CF.DEC of a `B`-byte block returns its `N` lanes, the counter lane decoded in `ORDER` and
every sibling in `HOST_ORDER`, and changes nothing. -/
def Obligations.CfDecSplitsBlock : Prop :=
  ∀ (s : State) (block : List Byte), s.ready →
    block.length = s.cfg.N * (s.cfg.W.bits / 8) →
    ∃ vs, exec (.cfDec block) s =
        .next { s with responses := s.responses ++ [.ok (.lanes vs)] } ∧
      vs.length = s.cfg.N ∧
      ∀ j, j < s.cfg.N →
        (j = (match s.cfg.ORDER with | .be => s.cfg.N - 1 | .le => 0) →
          vs[j]? = some (decBytes s.cfg.ORDER
            ((block.drop (s.cfg.W.bits / 8 * j)).take (s.cfg.W.bits / 8)))) ∧
        (j ≠ (match s.cfg.ORDER with | .be => s.cfg.N - 1 | .le => 0) →
          vs[j]? = some (decBytes s.cfg.HOST_ORDER
            ((block.drop (s.cfg.W.bits / 8 * j)).take (s.cfg.W.bits / 8))))

/-- R185, R237: CF.DEC of a block of another length is the violation `E_BLKLEN`. -/
def Obligations.CfDecFaultsOnLength : Prop :=
  ∀ (s : State) (block : List Byte), s.ready →
    block.length ≠ s.cfg.N * (s.cfg.W.bits / 8) →
    exec (.cfDec block) s = .next (s.faultedWith 7#4)

/-- R187: CF.DEC of what CF.ENC returned restores every sibling lane, and `CTR + lane` modulo `2^W` in
the counter lane. -/
def Obligations.EncodeThenDecodeRestoresLanes : Prop :=
  ∀ (s : State) (lanes : List Nat), s.ready → (Instr.cfEnc lanes).wellFormed s.cfg = true →
    ∃ t bs u vs, exec (.cfEnc lanes) s = .next t ∧
      t.responses = s.responses ++ [.ok (.bytes bs)] ∧
      exec (.cfDec bs) t = .next u ∧ u.responses = t.responses ++ [.ok (.lanes vs)] ∧
      vs.length = lanes.length ∧
      ∀ j v, lanes[j]? = some v →
        vs[j]? = some (if j = s.cfg.P then (s.CTR + v) % 2 ^ s.cfg.W.bits else v)

/-- R188: with `CTR = 0`, CF.ENC of what CF.DEC returned gives back the block, for every block of `B`
bytes. -/
def Obligations.DecodeThenEncodeRestoresBlock : Prop :=
  ∀ (s : State) (block : List Byte), s.ready → s.CTR = 0 →
    block.length = s.cfg.N * (s.cfg.W.bits / 8) →
    ∃ t vs u, exec (.cfDec block) s = .next t ∧
      t.responses = s.responses ++ [.ok (.lanes vs)] ∧
      exec (.cfEnc vs) t = .next u ∧ u.responses = t.responses ++ [.ok (.bytes block)]

/-- R189: the bytes of lane `j` of the block CF.ENC returns, and leaves in `BLKO`, depend on that lane
only, and in the counter lane also on `CTR`: two instances of one flavour that agree there give the same
bytes, whatever their other lanes and other registers. -/
def Obligations.LanesDoNotInteract : Prop :=
  ∀ (s u : State) (lanes lanes' : List Nat) (j : Nat), s.ready → u.ready → u.cfg = s.cfg →
    lanes.length = s.cfg.N → lanes'.length = s.cfg.N → j < s.cfg.N → lanes[j]? = lanes'[j]? →
    (j = s.cfg.P → s.CTR = u.CTR) →
    ∃ t v bs bs', exec (.cfEnc lanes) s = .next t ∧ exec (.cfEnc lanes') u = .next v ∧
      t.responses = s.responses ++ [.ok (.bytes bs)] ∧ v.responses = u.responses ++ [.ok (.bytes bs')] ∧
      ∀ k, k < s.cfg.K → (bs[s.cfg.K * j + k]?).isSome = true ∧
        bs[s.cfg.K * j + k]? = bs'[s.cfg.K * j + k]? ∧
        t.BLKO.read (s.cfg.K * j + k) = v.BLKO.read (s.cfg.K * j + k)

/-- R17: byte `i` of the little-endian encoding is `v[8i+7:8i]` and of the big-endian one
`v[8(n-1-i)+7:8(n-1-i)]`; the little-endian value of a byte string is the sum of `b[i]·2^(8i)` and the
big-endian one the sum of `b[i]·2^(8(n-1-i))`; and encode and decode of one byte order are inverse, in both
directions. The formulas are the spec's own supply (log entry 14). -/
def Obligations.ByteOrderIsBijective : Prop :=
  (∀ (v n i : Nat), i < n →
    (encBytes .le v n)[i]? = some (BitVec.ofNat 8 (v / 2 ^ (8 * i))) ∧
    (encBytes .be v n)[i]? = some (BitVec.ofNat 8 (v / 2 ^ (8 * (n - 1 - i))))) ∧
  (∀ (o : ByteOrder) (v n : Nat), (encBytes o v n).length = n) ∧
  (∀ b : List Byte,
    decBytes .le b = ∑ i ∈ Finset.range b.length, (b.getD i 0#8).toNat * 2 ^ (8 * i) ∧
    decBytes .be b =
      ∑ i ∈ Finset.range b.length, (b.getD i 0#8).toNat * 2 ^ (8 * (b.length - 1 - i))) ∧
  (∀ (o : ByteOrder) (v n : Nat), v < 2 ^ (8 * n) → decBytes o (encBytes o v n) = v) ∧
  ∀ (o : ByteOrder) (b : List Byte), encBytes o (decBytes o b) b.length = b

/-- R163, R166: `LE32DEC` is the weighted sum of its four bytes, and it and `LE32ENC` are inverse. -/
def Obligations.WordCodecIsBijective : Prop :=
  (∀ b0 b1 b2 b3 : Byte, (le32Dec [b0, b1, b2, b3]).toNat =
    b0.toNat + 2 ^ 8 * b1.toNat + 2 ^ 16 * b2.toNat + 2 ^ 24 * b3.toNat) ∧
  (∀ w : Word, le32Dec (le32Enc w) = w) ∧
  ∀ b : List Byte, b.length = 4 → le32Enc (le32Dec b) = b

/-! ### Violations -/

/-- R242: while `ERR = 1` every command, and every command word that is none, returns `FAULT(ERRCODE)`
with the stored code and changes nothing. -/
def Obligations.ErrRefusesEveryCommand : Prop :=
  ∀ s : State, s.PH = .idle → s.ERR = true →
    (∀ i : Instr, i.isCommand = true → exec i s = .next s.turnedAway) ∧
    (∀ packet rest, s.resetAsserted = false → s.pending = packet :: rest →
      decode s.cfg (.c8 packet) = .error .illegalCommand →
      step s = .next (State.turnedAway { s with pending := rest, resetPin := s.resetPin.tail }))

/-- R271: a command presented while a BC.GEN is in progress has no defined effect: it is refused by
name, which is the model's choice among the treatments of 93 U12 (log entry 6). -/
def Obligations.BusyCommandIsRefused : Prop :=
  ∀ (i : Instr) (s : State), i.isCommand = true → s.PH ≠ .idle →
    exec i s = .refused .commandWhileBusy

/-- R241, R240, R72, R61: a step that sets `ERR` starts with no BC.GEN in progress, takes the host's packet,
and gives the state before it plus `ERR` and `ERRCODE`, a code from 1 to 7, with the `FAULT` response of
that code: no other register and no buffer changes. -/
def Obligations.ViolationsArePrecise : Prop :=
  ∀ s t : State, step s = .next t → s.ERR = false → t.ERR = true →
    s.PH = .idle ∧ 1 ≤ t.ERRCODE.toNat ∧ t.ERRCODE.toNat ≤ 7 ∧
    t = State.faultedWith { s with pending := s.pending.tail, resetPin := s.resetPin.tail } t.ERRCODE

/-- R30, R242, R243: while `ERR = 1` and without the reset event no step, whatever the host issues, clears
`ERR`, changes `ERRCODE`, or changes `S`, `ROUNDS`, `KEYED` or `CTR`; and from a state of the invariant it
changes nothing at all but the host's side: a packet is taken and answered with the stored code, and the
reset input of the step is taken (log entries 3, 4, 9). -/
def Obligations.ErrIsSticky : Prop :=
  ∀ s t : State, s.ERR = true → s.resetAsserted = false → step s = .next t →
    (t.ERR = true ∧ t.ERRCODE = s.ERRCODE ∧ t.S = s.S ∧ t.ROUNDS = s.ROUNDS ∧ t.KEYED = s.KEYED ∧
      t.CTR = s.CTR) ∧
    (s.Inv → t = { s with
      pending := s.pending.tail
      responses :=
        if s.pending = [] then s.responses else s.responses ++ [.fault s.ERRCODE]
      resetPin := s.resetPin.tail })

/-- R83, R238, R239, R242: a packet whose command word is none of the nine is the violation `E_CMD` when
`ERR = 0`, and gets the stored code when `ERR = 1`. That the whole packet goes with its command word is
the model's (log entry 5). -/
def Obligations.UnassignedCommandWordFaults : Prop :=
  ∀ (s : State) (cmd : Byte) (record : List Byte) (rest : List (List Byte)),
    s.PH = .idle → s.resetAsserted = false → s.pending = (cmd :: record) :: rest →
    cmd.toNat ∉ [0x01, 0x02, 0x10, 0x11, 0x12, 0x13, 0x14, 0x15, 0x16] →
    (s.ERR = false → step s = .next
      (State.faultedWith { s with pending := rest, resetPin := s.resetPin.tail } 1#4)) ∧
    (s.ERR = true → step s = .next
      (State.turnedAway { s with pending := rest, resetPin := s.resetPin.tail }))

/-! ### Steps -/

/-- 20_memory.md R65, R77: with the scheduler idle and no reset applied, a step takes the host's next
packet off the list and is exec of the command it decodes to. The packet list and the reset input are
the model's (log entries 3 and 9). -/
def Obligations.StepRunsDecodedCommand : Prop :=
  ∀ (s : State) (packet : List Byte) (rest : List (List Byte)) (i : Instr),
    s.PH = .idle → s.resetAsserted = false → s.pending = packet :: rest →
    decode s.cfg (.c8 packet) = .instr i →
    step s = exec i { s with pending := rest, resetPin := s.resetPin.tail }

/-- R110, R85: with no reset applied (log entry 9), while a BC.GEN is in progress a step is exec of the
micro-step `PH` names, whatever the host has waiting. -/
def Obligations.StepRunsSelectedMicroStep : Prop :=
  ∀ s : State, s.resetAsserted = false →
    (s.PH = .load → step s = exec .uLoad { s with resetPin := s.resetPin.tail }) ∧
    (s.PH = .col → step s = exec .uCol { s with resetPin := s.resetPin.tail }) ∧
    (s.PH = .diag → step s = exec .uDiag { s with resetPin := s.resetPin.tail }) ∧
    (s.PH = .ffwd → step s = exec .uFfwd { s with resetPin := s.resetPin.tail }) ∧
    (s.PH = .ser → step s = exec .uSer { s with resetPin := s.resetPin.tail })

/-- R110, R255: with the scheduler idle, no command from the host and no reset applied, a step retains all
state; a packet that is no command is refused by name (log entries 5 and 19). -/
def Obligations.StepIdlesOrRefuses : Prop :=
  ∀ s : State, s.PH = .idle → s.resetAsserted = false →
    (s.pending = [] → step s = .next { s with resetPin := s.resetPin.tail }) ∧
    (∀ packet rest, s.pending = packet :: rest →
      decode s.cfg (.c8 packet) = .error .malformedPacket → step s = .refused .malformedPacket)

/-- The only stops of a step from a state of the invariant are packets that are no command (log entry 5): no
instruction faults and none is refused. -/
def Obligations.StepIsSafe : Prop :=
  ∀ s : State, s.Inv → SafeAnswer (step s)

/-- R12, R264: no step changes a static parameter. -/
def Obligations.StepKeepsParameters : Prop :=
  ∀ s t : State, step s = .next t → t.cfg = s.cfg

/-! ### Encodings -/

/-- R78, R79, R80, R85: decoding the encoding of a well-formed instruction, in every configuration and for
every value of its operands, gives it back. -/
def Obligations.DecodeOfEncode : Prop :=
  ∀ (p : Params) (i : Instr), i.wellFormed p = true → decode p (encode p i) = .instr i

/-- R80: whatever decodes is the encoding of the well-formed instruction it decodes to, so each
instruction has one code word. -/
def Obligations.EncodeOfDecode : Prop :=
  ∀ (p : Params) (w : CodeWord) (i : Instr), decode p w = .instr i →
    i.wellFormed p = true ∧ encode p i = w

/-- R78, R83, R90: the command words rejected as unassigned are all but the nine, whatever follows and in
every configuration. -/
def Obligations.NineCommandWordsAssigned : Prop :=
  ∀ (p : Params) (cmd : Byte) (record : List Byte),
    decode p (.c8 (cmd :: record)) = .error .illegalCommand ↔
      cmd.toNat ∉ [0x01, 0x02, 0x10, 0x11, 0x12, 0x13, 0x14, 0x15, 0x16]

/-- Words written out from R78, R80 and R85, at least one of each command and all `PH` codes of micro-steps:
packets of 95_test_vectors.md P1 (line 5), P2 (lines 1, 2, 5, 8, 9), P3 (lines 2 and 6) and P5 (lines 2
and 3). -/
def Obligations.WrittenWordsDecode : Prop :=
  decode Params.reference (.c8 [0x02#8, 1#8, 0, 0, 0, 0, 0, 0, 0x09#8, 0x40#8, 0]) =
    .instr (.bcGen 0x0900000000000001#64 64#16) ∧
  decode Params.reference (.c8 [0x11#8, 0xfe#8, 0xff#8]) = .instr (.cfFromb 0xfffe) ∧
  decode Params.reference (.c8 [0x13#8]) = .instr .cfInc ∧
  decode Params.reference (.c8 [0x14#8, 0, 0, 1#8, 0, 0, 0, 0, 0]) = .instr (.cfCadd 0x10000) ∧
  decode Params.reference (.c8 [0x12#8]) = .instr .cfTob ∧
  decode Params.reference (.c8 [0x10#8]) = .instr .cfDef ∧
  decode Params.reference (.c8 [0x15#8, 0x02#8, 0x01#8, 0x04#8, 0x03#8, 0x06#8, 0x05#8, 0x08#8, 0x07#8,
      0x0a#8, 0x09#8, 0x0c#8, 0x0b#8, 0x0e#8, 0x0d#8, 0xfe#8, 0xff#8]) =
    .instr (.cfEnc [0x0102, 0x0304, 0x0506, 0x0708, 0x090a, 0x0b0c, 0x0d0e, 0xfffe]) ∧
  decode Params.reference (.c8 [0x16#8, 0x10#8, 0x00#8, 0x02#8, 0x01#8, 0x04#8, 0x03#8, 0x06#8, 0x05#8,
      0x08#8, 0x07#8, 0x0a#8, 0x09#8, 0x0c#8, 0x0b#8, 0x0e#8, 0x0d#8, 0x00#8, 0x01#8]) =
    .instr (.cfDec [0x02#8, 0x01#8, 0x04#8, 0x03#8, 0x06#8, 0x05#8, 0x08#8, 0x07#8, 0x0a#8, 0x09#8,
      0x0c#8, 0x0b#8, 0x0e#8, 0x0d#8, 0x00#8, 0x01#8]) ∧
  decode Params.reference (.c8 [0x02#8, 0, 0, 0, 0, 0, 0, 0, 0, 0x40#8, 0]) =
    .instr (.bcGen 0#64 64#16) ∧
  decode Params.reference (.c8 ([0x01#8, 0x20#8, 0x00#8] ++ List.replicate 32 0x00#8 ++
      [0x08#8, 0x00#8] ++ List.replicate 8 0x00#8 ++ [0x0a#8])) =
    .instr (.bcNew (List.replicate 32 0x00#8) (List.replicate 8 0x00#8) 10#8) ∧
  decode Params.reference (.u3 0b001#3) = .instr .uLoad ∧
  decode Params.reference (.u3 0b010#3) = .instr .uCol ∧
  decode Params.reference (.u3 0b011#3) = .instr .uDiag ∧
  decode Params.reference (.u3 0b100#3) = .instr .uFfwd ∧
  decode Params.reference (.u3 0b101#3) = .instr .uSer

/-- R84: the status bytes `0x00`, `0x01` and `0x80 + code`, and the payloads after the status byte: none, the
bytes as they are, a value as `K` bytes little-endian, the lanes as `K` bytes little-endian each, lane 0
first. -/
def Obligations.ResponsePackets : Prop :=
  ∀ (p : Params) (code : BitVec 4) (bs : List Byte) (v : Nat) (vs : List Nat),
    (Response.ok .none).packet p = [0x00#8] ∧
    (Response.ok (.bytes bs)).packet p = 0x00#8 :: bs ∧
    (∃ vb, (Response.ok (.value v)).packet p = 0x00#8 :: vb ∧ vb.length = p.K ∧
      le vb = v % 2 ^ p.W.bits ∧
      ∀ k, k < p.K → vb[k]? = some (BitVec.ofNat 8 (v % 2 ^ p.W.bits / 2 ^ (8 * k)))) ∧
    (∃ lb, (Response.ok (.lanes vs)).packet p = 0x00#8 :: lb ∧ lb.length = vs.length * p.K ∧
      ∀ j x, vs[j]? = some x →
        le ((lb.drop (p.K * j)).take p.K) = x % 2 ^ p.W.bits ∧
        ∀ k, k < p.K →
          lb[p.K * j + k]? = some (BitVec.ofNat 8 (x % 2 ^ p.W.bits / 2 ^ (8 * k)))) ∧
    Response.noValue.packet p = [0x01#8] ∧
    ((Response.fault code).packet p).map BitVec.toNat = [0x80 + code.toNat]

/-! ### Whole-machine rules -/

/-- 10_state.md R33: which instruction writes what. `S`, `ROUNDS` and `KEYED` only BC.NEW; `X` only the
micro-steps but U.SER; `CNT` only BC.GEN; `PH` only BC.GEN and the micro-steps; `DR` only U.LOAD, U.DIAG
and U.SER; `CTR` only CF.DEF, CF.FROMB and CF.INC; `ERR` and `ERRCODE` only a command with a violation
of its own; `OUT` only U.SER; `BLKO` only CF.ENC; the parameters and the host's side (log entries 1, 3, 9)
none. -/
def Obligations.AccessSummary : Prop :=
  ∀ (i : Instr) (s t : State), exec i s = .next t →
    ((t.S ≠ s.S ∨ t.ROUNDS ≠ s.ROUNDS ∨ t.KEYED ≠ s.KEYED) → ∃ key iv r, i = .bcNew key iv r) ∧
    (t.X ≠ s.X → i = .uLoad ∨ i = .uCol ∨ i = .uDiag ∨ i = .uFfwd) ∧
    (t.CNT ≠ s.CNT → ∃ c n, i = .bcGen c n) ∧
    (t.PH ≠ s.PH → (∃ c n, i = .bcGen c n) ∨ i.isCommand = false) ∧
    (t.DR ≠ s.DR → i = .uLoad ∨ i = .uDiag ∨ i = .uSer) ∧
    (t.CTR ≠ s.CTR → i = .cfDef ∨ (∃ v, i = .cfFromb v) ∨ i = .cfInc) ∧
    ((t.ERR ≠ s.ERR ∨ t.ERRCODE ≠ s.ERRCODE) →
      (∃ key iv r, i = .bcNew key iv r) ∨ (∃ c n, i = .bcGen c n) ∨ ∃ b, i = .cfDec b) ∧
    (t.OUT ≠ s.OUT → i = .uSer) ∧
    (t.BLKO ≠ s.BLKO → ∃ vs, i = .cfEnc vs) ∧
    t.cfg = s.cfg ∧ t.pending = s.pending ∧ t.resetPin = s.resetPin ∧ t.epoch = s.epoch

/-- R84, R110: an instruction that leaves the scheduler idle returns exactly one response, one that leaves
a BC.GEN in progress returns none, and only CF.CADD returns `NOVALUE`. -/
def Obligations.OneResponsePerCommand : Prop :=
  ∀ (i : Instr) (s t : State), exec i s = .next t →
    (t.PH = .idle → ∃ r, t.responses = s.responses ++ [r] ∧
      (r = .noValue → ∃ rhs, i = .cfCadd rhs)) ∧
    (t.PH ≠ .idle → t.responses = s.responses)

/-- R36, R190, R254: a CounterFlavor command neither reads nor writes what BlockCore holds: it does the
same, response included, whatever key, round count and working state are there. -/
def Obligations.CounterFlavorIgnoresBlockCore : Prop :=
  ∀ (i : Instr) (s u : State), ofCounterFlavor i = true →
    exec i (s.withBlockCoreOf u) = Result.mapNext (·.withBlockCoreOf u) (exec i s)

/-- R36, R190, R103: a BlockCore command or micro-step neither reads nor writes `CTR` and `BLKO`. -/
def Obligations.BlockCoreIgnoresCounterFlavor : Prop :=
  ∀ (i : Instr) (s u : State), ofCounterFlavor i = false →
    exec i (s.withCounterOf u) = Result.mapNext (·.withCounterOf u) (exec i s)

/-- R61, R118: while a BC.GEN is in progress and until it returns, no step changes anything but the
scheduler's own scratch: no half-written `OUT`, no response, no part of `S`. -/
def Obligations.GenerationIsInvisibleUntilItReturns : Prop :=
  ∀ s t : State, s.PH ≠ .idle → s.resetAsserted = false → step s = .next t → t.PH ≠ .idle →
    t = { s with X := t.X, DR := t.DR, PH := t.PH, resetPin := s.resetPin.tail }

/-- R116, R281: the scheduler's sequence depends on `ROUNDS` only: two BC.GENs in the same phase with the
same `DR` and `ROUNDS` go on to the same phase and `DR`, whatever key, counter and data they hold. -/
def Obligations.ScheduleIgnoresData : Prop :=
  ∀ s u : State, s.PH ≠ .idle → u.PH = s.PH → u.DR = s.DR → u.ROUNDS = s.ROUNDS →
    s.resetAsserted = false → u.resetAsserted = false →
    ∃ t v, step s = .next t ∧ step u = .next v ∧ t.PH = v.PH ∧ t.DR = v.DR

/-- R116, R119, R280, R101: from every state of the invariant a BC.GEN in progress returns within 23 steps,
if no reset is applied, with one response: the 64 bytes that R101 gives for the state words, the round
count and the latched counter. -/
def Obligations.GenerationTerminates : Prop :=
  ∀ s : State, s.Inv → s.PH ≠ .idle → s.resetPin = [] →
    ∃ n t, n ≤ 23 ∧ Host.Core.run core n s = .next t ∧ t.PH = .idle ∧
      t.responses = s.responses ++ [.ok (.bytes (blockBytes s.S s.ROUNDS s.CNT))] ∧
      (blockBytes s.S s.ROUNDS s.CNT).length = 64

/-- R23, R24, R28, R29, R30, R111 to R116, R50: every step keeps the invariant, from every state that
meets it: the keyed state's words, the legal round count, the codes of `ERRCODE`, the counter's width, the
canonical buffers, and in each phase that `X` is exactly what the double-rounds done so far make of `X0`. -/
def Obligations.StepKeepsInvariant : Prop :=
  ∀ s t : State, s.Inv → step s = .next t → t.Inv

/-- R118, R117, R101, R102: from every ready, keyed state of the invariant, `ROUNDS + 4` steps (the
command and its `ROUNDS + 3` micro-steps) give the state and the response the command level gives in one
step, but for the scratch registers `X` and `CNT` (log entries 11 and 20). -/
def Obligations.SchedulerRefinesBcGen : Prop :=
  ∀ (s : State) (counter : BitVec 64) (packet : List Byte) (rest : List (List Byte)),
    s.Inv → s.ready → s.KEYED = true → s.resetPin = [] → s.pending = packet :: rest →
    encode s.cfg (.bcGen counter 64#16) = .c8 packet →
    ∃ x u, Host.Core.run core (s.ROUNDS.toNat + 4) s = .next { u with CNT := counter, X := x } ∧
      genCommand counter 64#16 { s with pending := rest } = .next u ∧
      u.responses = s.responses ++ [.ok (.bytes (blockBytes s.S s.ROUNDS counter))] ∧
      u.S = s.S ∧ u.ROUNDS = s.ROUNDS ∧ u.KEYED = s.KEYED ∧ u.CTR = s.CTR

/-- R101, R103, R100: from every ready state, keyed before or not, BC.NEW and then BC.GEN return
`Block(key, iv, rounds, counter)`, a function of these four and of nothing else. -/
def Obligations.NewThenGenReturnsKeystreamBlock : Prop :=
  ∀ (s : State) (key iv : List Byte) (r : BitVec 8) (counter : BitVec 64) (newPacket genPacket : List Byte)
    (rest : List (List Byte)),
    s.ready → s.resetPin = [] → key.length = 32 → iv.length = 8 → (r = 8#8 ∨ r = 12#8 ∨ r = 20#8) →
    encode s.cfg (.bcNew key iv r) = .c8 newPacket →
    encode s.cfg (.bcGen counter 64#16) = .c8 genPacket →
    s.pending = newPacket :: genPacket :: rest →
    ∃ t, Host.Core.run core (r.toNat + 5) s = .next t ∧ t.pending = rest ∧
      t.responses =
        s.responses ++ [.ok .none, .ok (.bytes (keystreamBlock key iv r counter))]

/-- R103: two instances, whatever else they hold and however they are configured, return the same block
for the same key words, nonce words, round count and counter. -/
def Obligations.BlockDependsOnKeyIvRoundsCounter : Prop :=
  ∀ (s u : State) (counter : BitVec 64) (packet : List Byte) (srest urest : List (List Byte)),
    s.Inv → u.Inv → s.ready → u.ready → s.KEYED = true → u.KEYED = true →
    s.resetPin = [] → u.resetPin = [] →
    encode s.cfg (.bcGen counter 64#16) = .c8 packet →
    s.pending = packet :: srest → u.pending = packet :: urest →
    (∀ i, 4 ≤ i → i < 12 → s.S[i]? = u.S[i]?) → s.S[14] = u.S[14] → s.S[15] = u.S[15] →
    s.ROUNDS = u.ROUNDS →
    ∃ t v bs, Host.Core.run core (s.ROUNDS.toNat + 4) s = .next t ∧
      Host.Core.run core (s.ROUNDS.toNat + 4) u = .next v ∧ bs.length = 64 ∧
      t.responses = s.responses ++ [.ok (.bytes bs)] ∧
      v.responses = u.responses ++ [.ok (.bytes bs)]
end

