-- ==== Sys2Proof/Laws/Bytes.lean ====
section
/-! SUPPORT. Lengths and bounds of the byte-order functions (R17) and of the parameters derived from the
configuration (R12). -/

namespace Sys2Proof

@[simp] theorem toLe_length (v n : Nat) : (toLe v n).length = n := by
  induction n generalizing v with
  | zero => rfl
  | succ n ih => simp [toLe, ih]

@[simp] theorem toBe_length (v n : Nat) : (toBe v n).length = n := by
  induction n with
  | zero => rfl
  | succ n ih => simp [toBe, ih]

@[simp] theorem encBytes_length (o : ByteOrder) (v n : Nat) : (encBytes o v n).length = n := by
  cases o <;> simp [encBytes]

theorem le_lt (b : List Byte) : le b < 2 ^ (8 * b.length) := by
  induction b with
  | nil => simp [le]
  | cons x xs ih =>
    have hx := x.isLt
    have hp : 2 ^ (8 * (xs.length + 1)) = 2 ^ 8 * 2 ^ (8 * xs.length) := by
      rw [← pow_add]; ring_nf
    simp only [le, List.length_cons, hp]
    omega

theorem be_lt (b : List Byte) : be b < 2 ^ (8 * b.length) := by
  induction b with
  | nil => simp [be]
  | cons x xs ih =>
    have hx := x.isLt
    have hp : 2 ^ (8 * (xs.length + 1)) = 2 ^ 8 * 2 ^ (8 * xs.length) := by
      rw [← pow_add]; ring_nf
    simp only [be, List.length_cons, hp]
    have := Nat.mul_le_mul_right (2 ^ (8 * xs.length)) (Nat.le_pred_of_lt hx)
    simp only [Nat.pred_eq_sub_one] at this
    omega

theorem decBytes_lt (o : ByteOrder) (b : List Byte) : decBytes o b < 2 ^ (8 * b.length) := by
  cases o
  · exact be_lt b
  · exact le_lt b

/-- `W` is `8·K` bits. -/
theorem Params.bits_eq (p : Params) : p.W.bits = 8 * p.K := by
  unfold Params.K; cases p.W <;> rfl

theorem Params.modulus_eq (p : Params) : p.modulus = 2 ^ (8 * p.K) := by
  rw [Params.modulus, p.bits_eq]

theorem Params.modulus_pos (p : Params) : 0 < p.modulus := Nat.two_pow_pos _

theorem Params.K_pos (p : Params) : 0 < p.K := by
  unfold Params.K; cases p.W <;> decide

/-- The counter lane is one of the `N` lanes. -/
theorem Params.P_lt (p : Params) (h : 1 ≤ p.N) : p.P < p.N := by
  unfold Params.P; cases p.ORDER <;> simp <;> omega

namespace Machine

theorem addW_lt (p : Params) (x y : Nat) : addW p x y < p.modulus := Nat.mod_lt _ p.modulus_pos

@[simp] theorem le32Enc_length (w : Word) : (le32Enc w).length = 4 := toLe_length _ _

/-- A read inside a buffer gives as many bytes as were asked for. -/
theorem bufRead_length (buf : List Byte) (off n : Nat) (h : off + n ≤ buf.length) :
    (bufRead buf off n).length = n := by
  simp [bufRead]; omega

end Machine

end Sys2Proof
end

