-- ==== Sys2Proof/Laws/Decode.lean ====
section
/-! SUPPORT. What the decoder's pieces can answer: a packet decodes to a command only, a phase code to a micro-step
only. -/

namespace Sys2Proof

/-- An operand record gives the command its command word names. -/
theorem takeRecord_isCommand {p : Params} {c : Command} {bs rest : List Byte} {i : Instr}
    (h : takeRecord p c bs = some (i, rest)) : i.isCommand = true := by
  cases c <;>
    simp only [takeRecord, Option.bind_eq_some_iff, Option.map_eq_some_iff, Option.some.injEq,
      Prod.mk.injEq] at h
  · obtain ⟨_, _, _, _, _, _, _, _, _, _, rfl, _⟩ := h; rfl
  · obtain ⟨_, _, _, _, rfl, _⟩ := h; rfl
  · obtain ⟨rfl, _⟩ := h; rfl
  · obtain ⟨_, _, rfl, _⟩ := h; rfl
  · obtain ⟨rfl, _⟩ := h; rfl
  · obtain ⟨rfl, _⟩ := h; rfl
  · obtain ⟨_, _, rfl, _⟩ := h; rfl
  · obtain ⟨_, _, rfl, _⟩ := h; rfl
  · obtain ⟨_, _, _, _, rfl, _⟩ := h; rfl

/-- What a packet that decodes is made of: a command word, its operand record and nothing after it. -/
theorem decodePacket_instr {p : Params} {packet : List Byte} {i : Instr}
    (h : decodePacket p packet = .instr i) :
    ∃ cmd record c, packet = cmd :: record ∧ commandOf cmd = some c ∧
      takeRecord p c record = some (i, []) ∧ i.wellFormed p = true := by
  match packet with
  | [] => simp [decodePacket] at h
  | cmd :: record =>
    simp only [decodePacket] at h
    match hc : commandOf cmd with
    | none => simp [hc] at h
    | some c =>
      simp only [hc] at h
      match hr : takeRecord p c record with
      | none => simp [hr] at h
      | some (j, _ :: _) => simp [hr] at h
      | some (j, []) =>
        simp only [hr] at h
        split at h
        · rename_i hw
          cases h
          exact ⟨cmd, record, c, rfl, hc, hr, hw⟩
        · cases h

/-- A packet decodes to a command, never to a micro-step (R85). -/
theorem decodePacket_isCommand {p : Params} {packet : List Byte} {i : Instr}
    (h : decodePacket p packet = .instr i) : i.isCommand = true := by
  obtain ⟨_, _, _, _, _, hr, _⟩ := decodePacket_instr h
  exact takeRecord_isCommand hr

end Sys2Proof
end

