-- ==== Sys2Proof/Laws/Memory.lean ====
section
/-! SUPPORT. The laws of byte buffers: what a write leaves readable, and that every write keeps the canonical form
and the buffer's size. -/

namespace Sys2Proof.Machine

@[simp] theorem Memory.read_nil (a : Nat) : Memory.read [] a = none := rfl

/-- Reading back the byte just written, and every other byte as before. -/
theorem Memory.read_write (m : Memory) (a x : Nat) (b : Byte) :
    (m.write a b).read x = if x = a then some b else m.read x := by
  induction m with
  | nil => simp only [Memory.write, Memory.read]; exact if_congr eq_comm rfl rfl
  | cons c m ih =>
    simp only [Memory.write]
    split
    · simp only [Memory.read]
      exact if_congr eq_comm rfl rfl
    · split
      · rename_i h₁ h₂
        subst h₂
        simp only [Memory.read]
        by_cases hx : x = c.1
        · simp [hx]
        · simp [hx, Ne.symm hx]
      · rename_i h₁ h₂
        simp only [Memory.read, ih]
        by_cases hx : c.1 = x
        · rw [if_pos hx, if_pos hx, if_neg (by omega)]
        · rw [if_neg hx, if_neg hx]

theorem Memory.write_fst_mem (m : Memory) (a : Nat) (b : Byte) :
    ∀ x ∈ (m.write a b).map Prod.fst, x = a ∨ x ∈ m.map Prod.fst := by
  induction m with
  | nil => simp [Memory.write]
  | cons c m ih =>
    intro x hx
    simp only [Memory.write] at hx
    split at hx
    · simpa using hx
    · split at hx
      · rename_i h
        simp only [List.map_cons, List.mem_cons] at hx ⊢
        tauto
      · simp only [List.map_cons, List.mem_cons] at hx ⊢
        rcases hx with hx | hx
        · exact .inr (.inl hx)
        · rcases ih x hx with h | h
          · exact .inl h
          · exact .inr (.inr h)

/-- A write keeps the canonical form. -/
theorem Memory.write_wf (m : Memory) (a : Nat) (b : Byte) (hm : m.wf) : (m.write a b).wf := by
  induction m with
  | nil => simp [Memory.wf, Memory.write]
  | cons c m ih =>
    have hm' : Memory.wf m := (List.pairwise_cons.mp hm).2
    have hlt := (List.pairwise_cons.mp hm).1
    simp only [Memory.write]
    split
    · rename_i h
      refine List.pairwise_cons.mpr ⟨?_, hm⟩
      intro x hx
      simp only [List.map_cons, List.mem_cons] at hx
      rcases hx with rfl | hx
      · exact h
      · exact lt_trans h (hlt x hx)
    · split
      · rename_i h
        subst h
        exact List.pairwise_cons.mpr ⟨hlt, hm'⟩
      · refine List.pairwise_cons.mpr ⟨?_, ih hm'⟩
        intro x hx
        rcases Memory.write_fst_mem m a b x hx with rfl | hx
        · omega
        · exact hlt x hx

/-- A write inside the buffer leaves no byte listed outside it. -/
theorem Memory.write_within (m : Memory) (a : Nat) (b : Byte) (size : Nat) (hm : m.within size)
    (ha : a < size) : (m.write a b).within size := by
  intro c hc
  rcases Memory.write_fst_mem m a b c.1 (List.mem_map_of_mem hc) with h | h
  · omega
  · obtain ⟨d, hd, h⟩ := List.mem_map.mp h
    have := hm d hd
    omega

theorem Memory.writeBytes_wf (m : Memory) (a : Nat) (bs : List Byte) (hm : m.wf) :
    (m.writeBytes a bs).wf := by
  induction bs generalizing m a with
  | nil => exact hm
  | cons b bs ih => exact ih _ _ (m.write_wf a b hm)

theorem Memory.writeBytes_within (m : Memory) (a : Nat) (bs : List Byte) (size : Nat)
    (hm : m.within size) (ha : a + bs.length ≤ size) : (m.writeBytes a bs).within size := by
  induction bs generalizing m a with
  | nil => exact hm
  | cons b bs ih =>
    simp only [List.length_cons] at ha
    exact ih _ _ (m.write_within a b size hm (by omega)) (by omega)

/-- After a write of several bytes: the written offsets read as the bytes, every other as before. -/
theorem Memory.read_writeBytes (m : Memory) (a x : Nat) (bs : List Byte) :
    (m.writeBytes a bs).read x =
      if a ≤ x ∧ x < a + bs.length then bs[x - a]? else m.read x := by
  induction bs generalizing m a with
  | nil => simp only [Memory.writeBytes, List.length_nil]; rw [if_neg (by omega)]
  | cons b bs ih =>
    simp only [Memory.writeBytes, List.length_cons]
    rw [ih, Memory.read_write]
    by_cases h₁ : x = a
    · subst h₁
      rw [if_neg (by omega), if_pos rfl, if_pos (by omega)]
      simp
    · by_cases h₂ : a + 1 ≤ x ∧ x < a + 1 + bs.length
      · rw [if_pos h₂, if_pos (by omega)]
        have : x - a = (x - (a + 1)) + 1 := by omega
        rw [this, List.getElem?_cons_succ]
      · rw [if_neg h₂, if_neg h₁, if_neg (by omega)]

end Sys2Proof.Machine
end

