-- ==== Sys2Proof/Laws/State.lean ====
section
/-! SUPPORT. One lemma per field per state update, each true by rfl, so that no proof unfolds a record update. -/

namespace Sys2Proof.Machine

@[simp] theorem State.respond_cfg (s : State) (r : Response) :
    (s.respond r).cfg = s.cfg := rfl
@[simp] theorem State.respond_S (s : State) (r : Response) :
    (s.respond r).S = s.S := rfl
@[simp] theorem State.respond_ROUNDS (s : State) (r : Response) :
    (s.respond r).ROUNDS = s.ROUNDS := rfl
@[simp] theorem State.respond_KEYED (s : State) (r : Response) :
    (s.respond r).KEYED = s.KEYED := rfl
@[simp] theorem State.respond_X (s : State) (r : Response) :
    (s.respond r).X = s.X := rfl
@[simp] theorem State.respond_CNT (s : State) (r : Response) :
    (s.respond r).CNT = s.CNT := rfl
@[simp] theorem State.respond_PH (s : State) (r : Response) :
    (s.respond r).PH = s.PH := rfl
@[simp] theorem State.respond_DR (s : State) (r : Response) :
    (s.respond r).DR = s.DR := rfl
@[simp] theorem State.respond_CTR (s : State) (r : Response) :
    (s.respond r).CTR = s.CTR := rfl
@[simp] theorem State.respond_ERR (s : State) (r : Response) :
    (s.respond r).ERR = s.ERR := rfl
@[simp] theorem State.respond_ERRCODE (s : State) (r : Response) :
    (s.respond r).ERRCODE = s.ERRCODE := rfl
@[simp] theorem State.respond_OUT (s : State) (r : Response) :
    (s.respond r).OUT = s.OUT := rfl
@[simp] theorem State.respond_BLKO (s : State) (r : Response) :
    (s.respond r).BLKO = s.BLKO := rfl
@[simp] theorem State.respond_pending (s : State) (r : Response) :
    (s.respond r).pending = s.pending := rfl
@[simp] theorem State.respond_responses (s : State) (r : Response) :
    (s.respond r).responses = s.responses ++ [r] := rfl
@[simp] theorem State.respond_resetPin (s : State) (r : Response) :
    (s.respond r).resetPin = s.resetPin := rfl
@[simp] theorem State.respond_epoch (s : State) (r : Response) :
    (s.respond r).epoch = s.epoch := rfl

@[simp] theorem State.violate_cfg (s : State) (v : Violation) :
    (s.violate v).cfg = s.cfg := rfl
@[simp] theorem State.violate_S (s : State) (v : Violation) :
    (s.violate v).S = s.S := rfl
@[simp] theorem State.violate_ROUNDS (s : State) (v : Violation) :
    (s.violate v).ROUNDS = s.ROUNDS := rfl
@[simp] theorem State.violate_KEYED (s : State) (v : Violation) :
    (s.violate v).KEYED = s.KEYED := rfl
@[simp] theorem State.violate_X (s : State) (v : Violation) :
    (s.violate v).X = s.X := rfl
@[simp] theorem State.violate_CNT (s : State) (v : Violation) :
    (s.violate v).CNT = s.CNT := rfl
@[simp] theorem State.violate_PH (s : State) (v : Violation) :
    (s.violate v).PH = s.PH := rfl
@[simp] theorem State.violate_DR (s : State) (v : Violation) :
    (s.violate v).DR = s.DR := rfl
@[simp] theorem State.violate_CTR (s : State) (v : Violation) :
    (s.violate v).CTR = s.CTR := rfl
@[simp] theorem State.violate_ERR (s : State) (v : Violation) :
    (s.violate v).ERR = true := rfl
@[simp] theorem State.violate_ERRCODE (s : State) (v : Violation) :
    (s.violate v).ERRCODE = v.code := rfl
@[simp] theorem State.violate_OUT (s : State) (v : Violation) :
    (s.violate v).OUT = s.OUT := rfl
@[simp] theorem State.violate_BLKO (s : State) (v : Violation) :
    (s.violate v).BLKO = s.BLKO := rfl
@[simp] theorem State.violate_pending (s : State) (v : Violation) :
    (s.violate v).pending = s.pending := rfl
@[simp] theorem State.violate_responses (s : State) (v : Violation) :
    (s.violate v).responses = s.responses ++ [.fault v.code] := rfl
@[simp] theorem State.violate_resetPin (s : State) (v : Violation) :
    (s.violate v).resetPin = s.resetPin := rfl
@[simp] theorem State.violate_epoch (s : State) (v : Violation) :
    (s.violate v).epoch = s.epoch := rfl

@[simp] theorem State.writeCtr_cfg (s : State) (v : Nat) :
    (s.writeCtr v).cfg = s.cfg := rfl
@[simp] theorem State.writeCtr_S (s : State) (v : Nat) :
    (s.writeCtr v).S = s.S := rfl
@[simp] theorem State.writeCtr_ROUNDS (s : State) (v : Nat) :
    (s.writeCtr v).ROUNDS = s.ROUNDS := rfl
@[simp] theorem State.writeCtr_KEYED (s : State) (v : Nat) :
    (s.writeCtr v).KEYED = s.KEYED := rfl
@[simp] theorem State.writeCtr_X (s : State) (v : Nat) :
    (s.writeCtr v).X = s.X := rfl
@[simp] theorem State.writeCtr_CNT (s : State) (v : Nat) :
    (s.writeCtr v).CNT = s.CNT := rfl
@[simp] theorem State.writeCtr_PH (s : State) (v : Nat) :
    (s.writeCtr v).PH = s.PH := rfl
@[simp] theorem State.writeCtr_DR (s : State) (v : Nat) :
    (s.writeCtr v).DR = s.DR := rfl
@[simp] theorem State.writeCtr_CTR (s : State) (v : Nat) :
    (s.writeCtr v).CTR = v % s.cfg.modulus := rfl
@[simp] theorem State.writeCtr_ERR (s : State) (v : Nat) :
    (s.writeCtr v).ERR = s.ERR := rfl
@[simp] theorem State.writeCtr_ERRCODE (s : State) (v : Nat) :
    (s.writeCtr v).ERRCODE = s.ERRCODE := rfl
@[simp] theorem State.writeCtr_OUT (s : State) (v : Nat) :
    (s.writeCtr v).OUT = s.OUT := rfl
@[simp] theorem State.writeCtr_BLKO (s : State) (v : Nat) :
    (s.writeCtr v).BLKO = s.BLKO := rfl
@[simp] theorem State.writeCtr_pending (s : State) (v : Nat) :
    (s.writeCtr v).pending = s.pending := rfl
@[simp] theorem State.writeCtr_responses (s : State) (v : Nat) :
    (s.writeCtr v).responses = s.responses := rfl
@[simp] theorem State.writeCtr_resetPin (s : State) (v : Nat) :
    (s.writeCtr v).resetPin = s.resetPin := rfl
@[simp] theorem State.writeCtr_epoch (s : State) (v : Nat) :
    (s.writeCtr v).epoch = s.epoch := rfl

@[simp] theorem State.dropPin_cfg (s : State) :
    (s.dropPin).cfg = s.cfg := rfl
@[simp] theorem State.dropPin_S (s : State) :
    (s.dropPin).S = s.S := rfl
@[simp] theorem State.dropPin_ROUNDS (s : State) :
    (s.dropPin).ROUNDS = s.ROUNDS := rfl
@[simp] theorem State.dropPin_KEYED (s : State) :
    (s.dropPin).KEYED = s.KEYED := rfl
@[simp] theorem State.dropPin_X (s : State) :
    (s.dropPin).X = s.X := rfl
@[simp] theorem State.dropPin_CNT (s : State) :
    (s.dropPin).CNT = s.CNT := rfl
@[simp] theorem State.dropPin_PH (s : State) :
    (s.dropPin).PH = s.PH := rfl
@[simp] theorem State.dropPin_DR (s : State) :
    (s.dropPin).DR = s.DR := rfl
@[simp] theorem State.dropPin_CTR (s : State) :
    (s.dropPin).CTR = s.CTR := rfl
@[simp] theorem State.dropPin_ERR (s : State) :
    (s.dropPin).ERR = s.ERR := rfl
@[simp] theorem State.dropPin_ERRCODE (s : State) :
    (s.dropPin).ERRCODE = s.ERRCODE := rfl
@[simp] theorem State.dropPin_OUT (s : State) :
    (s.dropPin).OUT = s.OUT := rfl
@[simp] theorem State.dropPin_BLKO (s : State) :
    (s.dropPin).BLKO = s.BLKO := rfl
@[simp] theorem State.dropPin_pending (s : State) :
    (s.dropPin).pending = s.pending := rfl
@[simp] theorem State.dropPin_responses (s : State) :
    (s.dropPin).responses = s.responses := rfl
@[simp] theorem State.dropPin_resetPin (s : State) :
    (s.dropPin).resetPin = s.resetPin.tail := rfl
@[simp] theorem State.dropPin_epoch (s : State) :
    (s.dropPin).epoch = s.epoch := rfl

@[simp] theorem State.applyReset_cfg (s : State) :
    (applyReset s).cfg = s.cfg := rfl
@[simp] theorem State.applyReset_S (s : State) :
    (applyReset s).S = Vector.ofFn fun i : Fin 16 => Config.unwrittenS (s.epoch + 1) i := rfl
@[simp] theorem State.applyReset_ROUNDS (s : State) :
    (applyReset s).ROUNDS = Config.unwrittenRounds (s.epoch + 1) := rfl
@[simp] theorem State.applyReset_KEYED (s : State) :
    (applyReset s).KEYED = false := rfl
@[simp] theorem State.applyReset_X (s : State) :
    (applyReset s).X = Vector.ofFn fun i : Fin 16 => Config.unwrittenX (s.epoch + 1) i := rfl
@[simp] theorem State.applyReset_CNT (s : State) :
    (applyReset s).CNT = Config.unwrittenCnt (s.epoch + 1) := rfl
@[simp] theorem State.applyReset_PH (s : State) :
    (applyReset s).PH = .idle := rfl
@[simp] theorem State.applyReset_DR (s : State) :
    (applyReset s).DR = 0#4 := rfl
@[simp] theorem State.applyReset_CTR (s : State) :
    (applyReset s).CTR = 0 := rfl
@[simp] theorem State.applyReset_ERR (s : State) :
    (applyReset s).ERR = false := rfl
@[simp] theorem State.applyReset_ERRCODE (s : State) :
    (applyReset s).ERRCODE = 0#4 := rfl
@[simp] theorem State.applyReset_OUT (s : State) :
    (applyReset s).OUT = s.OUT := rfl
@[simp] theorem State.applyReset_BLKO (s : State) :
    (applyReset s).BLKO = s.BLKO := rfl
@[simp] theorem State.applyReset_pending (s : State) :
    (applyReset s).pending = s.pending := rfl
@[simp] theorem State.applyReset_responses (s : State) :
    (applyReset s).responses = s.responses := rfl
@[simp] theorem State.applyReset_resetPin (s : State) :
    (applyReset s).resetPin = s.resetPin := rfl
@[simp] theorem State.applyReset_epoch (s : State) :
    (applyReset s).epoch = s.epoch + 1 := rfl

@[simp] theorem State.resetOf_cfg (p : Params) (e : Nat) :
    (State.resetOf p e).cfg = p := rfl
@[simp] theorem State.resetOf_S (p : Params) (e : Nat) :
    (State.resetOf p e).S = Vector.ofFn fun i : Fin 16 => Config.unwrittenS e i := rfl
@[simp] theorem State.resetOf_ROUNDS (p : Params) (e : Nat) :
    (State.resetOf p e).ROUNDS = Config.unwrittenRounds e := rfl
@[simp] theorem State.resetOf_KEYED (p : Params) (e : Nat) :
    (State.resetOf p e).KEYED = false := rfl
@[simp] theorem State.resetOf_X (p : Params) (e : Nat) :
    (State.resetOf p e).X = Vector.ofFn fun i : Fin 16 => Config.unwrittenX e i := rfl
@[simp] theorem State.resetOf_CNT (p : Params) (e : Nat) :
    (State.resetOf p e).CNT = Config.unwrittenCnt e := rfl
@[simp] theorem State.resetOf_PH (p : Params) (e : Nat) :
    (State.resetOf p e).PH = .idle := rfl
@[simp] theorem State.resetOf_DR (p : Params) (e : Nat) :
    (State.resetOf p e).DR = 0#4 := rfl
@[simp] theorem State.resetOf_CTR (p : Params) (e : Nat) :
    (State.resetOf p e).CTR = 0 := rfl
@[simp] theorem State.resetOf_ERR (p : Params) (e : Nat) :
    (State.resetOf p e).ERR = false := rfl
@[simp] theorem State.resetOf_ERRCODE (p : Params) (e : Nat) :
    (State.resetOf p e).ERRCODE = 0#4 := rfl
@[simp] theorem State.resetOf_OUT (p : Params) (e : Nat) :
    (State.resetOf p e).OUT = [] := rfl
@[simp] theorem State.resetOf_BLKO (p : Params) (e : Nat) :
    (State.resetOf p e).BLKO = [] := rfl
@[simp] theorem State.resetOf_pending (p : Params) (e : Nat) :
    (State.resetOf p e).pending = [] := rfl
@[simp] theorem State.resetOf_responses (p : Params) (e : Nat) :
    (State.resetOf p e).responses = [] := rfl
@[simp] theorem State.resetOf_resetPin (p : Params) (e : Nat) :
    (State.resetOf p e).resetPin = [] := rfl
@[simp] theorem State.resetOf_epoch (p : Params) (e : Nat) :
    (State.resetOf p e).epoch = e := rfl

@[simp] theorem State.reset_eq : State.reset = State.resetOf Params.reference 0 := rfl

end Sys2Proof.Machine
end

