-- ==== Sys2Proof/Laws/Ops.lean ====
section
/-! SUPPORT. What the shared operations and each meaning can do, said once: if it answers next t, then t is one of
these. Provers cite these instead of unfolding the meanings. -/

namespace Sys2Proof.Machine

variable {s t : State}

theorem issue_ready {work : State → Result} (hp : s.PH = .idle) (he : s.ERR = false) :
    issue s work = work s := by simp [issue, hp, he]

theorem issue_err {work : State → Result} (hp : s.PH = .idle) (he : s.ERR = true) :
    issue s work = .next (s.respond (.fault s.ERRCODE)) := by simp [issue, hp, he, refuseCommand]

theorem issue_busy {work : State → Result} (hp : s.PH ≠ .idle) :
    issue s work = .refused .commandWhileBusy := by
  unfold issue
  cases h : s.PH <;> simp_all

/-- What an issued command that answers a next state did. -/
theorem issue_next {work : State → Result} (h : issue s work = .next t) :
    s.PH = .idle ∧
      ((s.ERR = true ∧ t = s.respond (.fault s.ERRCODE)) ∨ (s.ERR = false ∧ work s = .next t)) := by
  by_cases hp : s.PH = .idle
  · refine ⟨hp, ?_⟩
    cases he : s.ERR
    · exact .inr ⟨rfl, by rwa [issue_ready hp he] at h⟩
    · rw [issue_err hp he] at h
      exact .inl ⟨rfl, by simpa using h.symm⟩
  · rw [issue_busy hp] at h
    cases h

theorem raiseViolation_next {v : Violation} (h : raiseViolation v s = .next t) :
    t = s.violate v := by simpa [raiseViolation] using h.symm

theorem execBcNew_next {key iv : List Byte} {r : BitVec 8} (h : execBcNew key iv r s = .next t) :
    s.PH = .idle ∧
      ((s.ERR = true ∧ t = s.respond (.fault s.ERRCODE)) ∨
       (s.ERR = false ∧
        ((key.length ≠ 32 ∧ t = s.violate .keyLen) ∨
         (key.length = 32 ∧ iv.length ≠ 8 ∧ t = s.violate .ivLen) ∨
         (key.length = 32 ∧ iv.length = 8 ∧ legalRounds r = false ∧ t = s.violate .rounds) ∨
         (key.length = 32 ∧ iv.length = 8 ∧ legalRounds r = true ∧
          t = State.respond { s with S := keySchedule key iv, ROUNDS := r, KEYED := true }
                (.ok .none))))) := by
  obtain ⟨hp, h | ⟨he, h⟩⟩ := issue_next h
  · exact ⟨hp, .inl h⟩
  · refine ⟨hp, .inr ⟨he, ?_⟩⟩
    split at h
    · exact .inl ⟨‹_›, raiseViolation_next h⟩
    · split at h
      · exact .inr (.inl ⟨by omega, ‹_›, raiseViolation_next h⟩)
      · split at h
        · exact .inr (.inr (.inl ⟨by omega, by omega, ‹_›, raiseViolation_next h⟩))
        · exact .inr (.inr (.inr ⟨by omega, by omega, by simpa using ‹¬legalRounds r = false›,
            by simpa using h.symm⟩))

theorem execBcGen_next {counter : BitVec 64} {outLen : BitVec 16}
    (h : execBcGen counter outLen s = .next t) :
    s.PH = .idle ∧
      ((s.ERR = true ∧ t = s.respond (.fault s.ERRCODE)) ∨
       (s.ERR = false ∧
        ((s.KEYED = false ∧ t = s.violate .notKeyed) ∨
         (s.KEYED = true ∧ outLen ≠ 64#16 ∧ t = s.violate .outLen) ∨
         (s.KEYED = true ∧ outLen = 64#16 ∧ t = { s with CNT := counter, PH := .load })))) := by
  obtain ⟨hp, h | ⟨he, h⟩⟩ := issue_next h
  · exact ⟨hp, .inl h⟩
  · refine ⟨hp, .inr ⟨he, ?_⟩⟩
    split at h
    · exact .inl ⟨‹_›, raiseViolation_next h⟩
    · have hk : s.KEYED = true := by simpa using ‹¬s.KEYED = false›
      split at h
      · exact .inr (.inl ⟨hk, ‹_›, raiseViolation_next h⟩)
      · exact .inr (.inr ⟨hk, not_not.mp ‹_›, by simpa using h.symm⟩)

theorem execCfDef_next (h : execCfDef s = .next t) :
    s.PH = .idle ∧ ((s.ERR = true ∧ t = s.respond (.fault s.ERRCODE)) ∨
      (s.ERR = false ∧ t = (s.writeCtr 0).respond (.ok .none))) := by
  obtain ⟨hp, h | ⟨he, h⟩⟩ := issue_next h
  · exact ⟨hp, .inl h⟩
  · exact ⟨hp, .inr ⟨he, by simpa using h.symm⟩⟩

theorem execCfFromb_next {v : Nat} (h : execCfFromb v s = .next t) :
    s.PH = .idle ∧ ((s.ERR = true ∧ t = s.respond (.fault s.ERRCODE)) ∨
      (s.ERR = false ∧ t = (s.writeCtr v).respond (.ok .none))) := by
  obtain ⟨hp, h | ⟨he, h⟩⟩ := issue_next h
  · exact ⟨hp, .inl h⟩
  · exact ⟨hp, .inr ⟨he, by simpa using h.symm⟩⟩

theorem execCfTob_next (h : execCfTob s = .next t) :
    s.PH = .idle ∧ ((s.ERR = true ∧ t = s.respond (.fault s.ERRCODE)) ∨
      (s.ERR = false ∧ t = s.respond (.ok (.value s.CTR)))) := by
  obtain ⟨hp, h | ⟨he, h⟩⟩ := issue_next h
  · exact ⟨hp, .inl h⟩
  · exact ⟨hp, .inr ⟨he, by simpa using h.symm⟩⟩

theorem execCfInc_next (h : execCfInc s = .next t) :
    s.PH = .idle ∧ ((s.ERR = true ∧ t = s.respond (.fault s.ERRCODE)) ∨
      (s.ERR = false ∧
        t = (s.writeCtr (addW s.cfg s.CTR 1)).respond (.ok (.value (addW s.cfg s.CTR 1))))) := by
  obtain ⟨hp, h | ⟨he, h⟩⟩ := issue_next h
  · exact ⟨hp, .inl h⟩
  · exact ⟨hp, .inr ⟨he, by simpa using h.symm⟩⟩

theorem execCfCadd_next {rhs : Nat} (h : execCfCadd rhs s = .next t) :
    s.PH = .idle ∧ ((s.ERR = true ∧ t = s.respond (.fault s.ERRCODE)) ∨
      (s.ERR = false ∧ ∃ r, t = s.respond r ∧ (r = .noValue ∨ r = .ok (.value (s.CTR + rhs))))) := by
  obtain ⟨hp, h | ⟨he, h⟩⟩ := issue_next h
  · exact ⟨hp, .inl h⟩
  · refine ⟨hp, .inr ⟨he, ?_⟩⟩
    split at h
    · exact ⟨_, by simpa using h.symm, .inl rfl⟩
    · split at h
      · exact ⟨_, by simpa using h.symm, .inl rfl⟩
      · exact ⟨_, by simpa using h.symm, .inr rfl⟩

theorem execCfEnc_next {lanes : List Nat} (h : execCfEnc lanes s = .next t) :
    s.PH = .idle ∧ ((s.ERR = true ∧ t = s.respond (.fault s.ERRCODE)) ∨
      (s.ERR = false ∧ lanes.length = s.cfg.N ∧
        t = State.respond { s with BLKO := s.BLKO.writeBytes 0 (encodeBlock s.cfg s.CTR lanes) }
              (.ok (.bytes (encodeBlock s.cfg s.CTR lanes))))) := by
  obtain ⟨hp, h | ⟨he, h⟩⟩ := issue_next h
  · exact ⟨hp, .inl h⟩
  · refine ⟨hp, .inr ⟨he, ?_⟩⟩
    split at h
    · exact ⟨‹_›, by simpa using h.symm⟩
    · cases h

theorem execCfDec_next {block : List Byte} (h : execCfDec block s = .next t) :
    s.PH = .idle ∧ ((s.ERR = true ∧ t = s.respond (.fault s.ERRCODE)) ∨
      (s.ERR = false ∧ ((block.length ≠ s.cfg.B ∧ t = s.violate .blkLen) ∨
        (block.length = s.cfg.B ∧ t = s.respond (.ok (.lanes (decodeBlock s.cfg block))))))) := by
  obtain ⟨hp, h | ⟨he, h⟩⟩ := issue_next h
  · exact ⟨hp, .inl h⟩
  · refine ⟨hp, .inr ⟨he, ?_⟩⟩
    split at h
    · exact .inl ⟨‹_›, raiseViolation_next h⟩
    · exact .inr ⟨not_not.mp ‹_›, by simpa using h.symm⟩

/-- Every command is issued: its meaning is some work behind the tests of `PH` and `ERR`. -/
theorem exec_command {i : Instr} (h : i.isCommand = true) :
    ∃ work, ∀ s, exec i s = issue s work := by
  cases i <;>
    simp only [exec, execBcNew, execBcGen, execCfDef, execCfFromb, execCfTob, execCfInc, execCfCadd,
      execCfEnc, execCfDec] <;>
    first
    | exact ⟨_, fun _ => rfl⟩
    | simp [Instr.isCommand] at h

/-- The four sources of a next state of the step: the reset event, an idle step, an unassigned command
word, an instruction. -/
theorem step_next (h : step s = .next t) :
    (s.resetAsserted = true ∧ t = applyReset s.dropPin) ∨
    (s.resetAsserted = false ∧ fetchWord s.dropPin = .idle t) ∨
    (s.resetAsserted = false ∧ ∃ w u, fetchWord s.dropPin = .word w u ∧
      ((decode u.cfg w = .error .illegalCommand ∧ issue u (raiseViolation .cmd) = .next t) ∨
       (∃ i, decode u.cfg w = .instr i ∧ exec i u = .next t))) := by
  unfold step fetch at h
  cases hr : s.resetAsserted
  · simp only [hr, Bool.false_eq_true, if_false] at h
    right
    cases hf : fetchWord s.dropPin with
    | reset u =>
      exfalso
      unfold fetchWord at hf
      split at hf
      · split at hf <;> cases hf
      all_goals cases hf
    | idle u => rw [hf] at h; exact .inl ⟨rfl, by simpa using h⟩
    | word w u =>
      rw [hf] at h
      refine .inr ⟨rfl, w, u, rfl, ?_⟩
      cases hd : decode u.cfg w with
      | instr i => simp only [hd] at h; exact .inr ⟨i, rfl, h⟩
      | error e =>
        simp only [hd] at h
        cases e
        · exact .inl ⟨rfl, h⟩
        · cases h
        · cases h
  · simp only [hr, if_true] at h
    exact .inl ⟨rfl, by simpa using h.symm⟩

/-- What the phase or the host's next packet gives the step. -/
theorem fetchWord_cases (s : State) :
    (s.PH = .idle ∧ s.pending = [] ∧ fetchWord s = .idle s) ∨
    (s.PH = .idle ∧ ∃ p rest, s.pending = p :: rest ∧
      fetchWord s = .word (.c8 p) { s with pending := rest }) ∨
    (s.PH ≠ .idle ∧ fetchWord s = .word (.u3 s.PH.code) s) := by
  unfold fetchWord
  cases hp : s.PH <;> simp
  cases hq : s.pending <;> simp

end Sys2Proof.Machine
end

