-- ==== Sys2Proof/Laws/PerInstr.lean ====
section
/-! SUPPORT. Per-instruction family Format: an instruction has the packet format `C8` exactly when it is a command
(30_encoding.md R77), else the phase format `U3` (R85). -/

namespace Sys2Proof.Laws.Format

/-- The encoding of `i` is a packet if and only if `i` is a command. -/
def Statement (i : Instr) : Prop :=
  ∀ p : Params, (∃ packet, encode p i = .c8 packet) ↔ i.isCommand = true

theorem bcNew (key iv : List Byte) (rounds : BitVec 8) : Statement (.bcNew key iv rounds) :=
  fun _ => ⟨fun _ => rfl, fun _ => ⟨_, rfl⟩⟩

theorem bcGen (counter : BitVec 64) (outLen : BitVec 16) : Statement (.bcGen counter outLen) :=
  fun _ => ⟨fun _ => rfl, fun _ => ⟨_, rfl⟩⟩

theorem cfDef : Statement .cfDef := fun _ => ⟨fun _ => rfl, fun _ => ⟨_, rfl⟩⟩

theorem cfFromb (v : Nat) : Statement (.cfFromb v) := fun _ => ⟨fun _ => rfl, fun _ => ⟨_, rfl⟩⟩

theorem cfTob : Statement .cfTob := fun _ => ⟨fun _ => rfl, fun _ => ⟨_, rfl⟩⟩

theorem cfInc : Statement .cfInc := fun _ => ⟨fun _ => rfl, fun _ => ⟨_, rfl⟩⟩

theorem cfCadd (rhs : Nat) : Statement (.cfCadd rhs) := fun _ => ⟨fun _ => rfl, fun _ => ⟨_, rfl⟩⟩

theorem cfEnc (lanes : List Nat) : Statement (.cfEnc lanes) :=
  fun _ => ⟨fun _ => rfl, fun _ => ⟨_, rfl⟩⟩

theorem cfDec (block : List Byte) : Statement (.cfDec block) :=
  fun _ => ⟨fun _ => rfl, fun _ => ⟨_, rfl⟩⟩

theorem uLoad : Statement .uLoad := fun _ => by simp [encode, Instr.isCommand]

theorem uCol : Statement .uCol := fun _ => by simp [encode, Instr.isCommand]

theorem uDiag : Statement .uDiag := fun _ => by simp [encode, Instr.isCommand]

theorem uFfwd : Statement .uFfwd := fun _ => by simp [encode, Instr.isCommand]

theorem uSer : Statement .uSer := fun _ => by simp [encode, Instr.isCommand]

end Sys2Proof.Laws.Format
end

