-- ==== Sys2Proof/Laws/Rounds.lean ====
section
/-! SUPPORT. The small lemmas of the round functions and of the pre-mixing state, so that no proof unfolds a
round. -/

namespace Sys2Proof.Machine

@[simp] theorem doubleRounds_zero (x : RegFile) : doubleRounds 0 x = x := rfl

theorem doubleRounds_succ (n : Nat) (x : RegFile) :
    doubleRounds (n + 1) x = diagRound (colRound (doubleRounds n x)) := rfl

@[simp] theorem tableRounds_zero (x : RegFile) : tableRounds 0 x = x := rfl

theorem tableRounds_succ (n : Nat) (x : RegFile) :
    tableRounds (n + 1) x = tableRounds n (tableRound (tableRound x colTable) diagTable) := rfl

/-- The column round of U.COL is the column table of the source. -/
theorem tableRound_colTable (x : RegFile) : tableRound x colTable = colRound x := by
  have h : colTable = [colGroup 0, colGroup 1, colGroup 2, colGroup 3] := by decide
  rw [h]; simp only [tableRound, List.foldl_cons, List.foldl_nil, colRound]

/-- The diagonal round of U.DIAG is the diagonal table of the source. -/
theorem tableRound_diagTable (x : RegFile) : tableRound x diagTable = diagRound x := by
  have h : diagTable = [diagGroup 0, diagGroup 1, diagGroup 2, diagGroup 3] := by decide
  rw [h]; simp only [tableRound, List.foldl_cons, List.foldl_nil, diagRound]

theorem State.X0_eq {s t : State} (hS : t.S = s.S) (hC : t.CNT = s.CNT) : t.X0 = s.X0 := by
  rw [State.X0, State.X0, hS, hC]

/-- A legal round count is 4, 6 or 10 double-rounds. -/
theorem doubleRoundCount_legal {r : BitVec 8} (h : r = 8#8 ∨ r = 12#8 ∨ r = 20#8) :
    2 * doubleRoundCount r = r.toNat ∧ 4 ≤ doubleRoundCount r ∧ doubleRoundCount r ≤ 10 := by
  rcases h with rfl | rfl | rfl <;> decide

theorem legalRounds_iff {r : BitVec 8} :
    legalRounds r = true ↔ r = 8#8 ∨ r = 12#8 ∨ r = 20#8 := by
  simp [legalRounds, or_assoc]

end Sys2Proof.Machine
end

