-- ==== Sys2Proof/Laws/Safety.lean ====
section
/-! SUPPORT. Each part of the invariant depends on the fields it names only: proofs carry it across an update of
other fields with these, and never unfold a round. -/

namespace Sys2Proof.Machine

variable {s t : State}

theorem State.KeyedState.of_eq (h : s.KeyedState) (hS : t.S = s.S) (hR : t.ROUNDS = s.ROUNDS) :
    t.KeyedState where
  const0 := by rw [hS]; exact h.const0
  const1 := by rw [hS]; exact h.const1
  const2 := by rw [hS]; exact h.const2
  const3 := by rw [hS]; exact h.const3
  counterLow := by rw [hS]; exact h.counterLow
  counterHigh := by rw [hS]; exact h.counterHigh
  rounds := by rw [hR]; exact h.rounds

theorem State.Buffers.of_eq (h : s.Buffers) (hO : t.OUT = s.OUT) (hB : t.BLKO = s.BLKO)
    (hc : t.cfg = s.cfg) : t.Buffers where
  outWf := by rw [hO]; exact h.outWf
  outWithin := by rw [hO]; exact h.outWithin
  blkoWf := by rw [hB]; exact h.blkoWf
  blkoWithin := by rw [hB, hc]; exact h.blkoWithin

theorem State.ErrState.of_eq (h : s.ErrState) (hE : t.ERR = s.ERR) (hC : t.ERRCODE = s.ERRCODE) :
    t.ErrState := by
  rw [State.ErrState, hE, hC]; exact h

theorem State.Progress.of_eq (h : s.Progress) (hP : t.PH = s.PH) (hD : t.DR = s.DR) (hX : t.X = s.X)
    (hS : t.S = s.S) (hC : t.CNT = s.CNT) (hR : t.ROUNDS = s.ROUNDS) (hK : t.KEYED = s.KEYED)
    (hE : t.ERR = s.ERR) : t.Progress := by
  rw [State.Progress, State.X0_eq hS hC, hP, hD, hX, hR, State.generating, hK, hE]; exact h

/-- What an idle scheduler's progress says. -/
theorem State.progress_idle (hP : s.PH = .idle) : s.Progress ↔ s.DR = 0#4 := by
  simp only [State.Progress, hP]

end Sys2Proof.Machine
end

