-- ==== Sys2Proof/Machine/Text.lean ====
section
/-! DEFINITION. The text syntax of commands and responses (30_encoding.md R88), as a printer: one command a line, byte
strings as two hexadecimal digits per byte, `outlen` left out at its default 64. A micro-step is no
command and has its mnemonic only (R85). -/

namespace Sys2Proof.Machine

/-- A byte as two hexadecimal digits. -/
def hexByte (b : Byte) : String :=
  String.ofList [Nat.digitChar (b.toNat / 16), Nat.digitChar (b.toNat % 16)]

/-- `<hex bytes>`: byte 0 first (R88). -/
def hexBytes (bs : List Byte) : String := String.intercalate " " (bs.map hexByte)

/-- `<0x number>` (R15, R88). -/
def hexNumber (v : Nat) : String := "0x" ++ String.ofList (Nat.toDigits 16 v)

/-- `<decimal>`. -/
def decimal (v : Nat) : String := String.ofList (Nat.toDigits 10 v)

/-- The text of an instruction (R88). -/
def instrText : Instr → String
  | .bcNew key iv rounds =>
    "BC.NEW key=" ++ hexBytes key ++ ", iv=" ++ hexBytes iv ++ ", rounds=" ++ decimal rounds.toNat
  | .bcGen counter outLen =>
    "BC.GEN counter=" ++ hexNumber counter.toNat ++
      (if outLen = 64#16 then "" else ", outlen=" ++ decimal outLen.toNat)
  | .cfDef => "CF.DEF"
  | .cfFromb v => "CF.FROMB v=" ++ hexNumber v
  | .cfTob => "CF.TOB"
  | .cfInc => "CF.INC"
  | .cfCadd rhs => "CF.CADD rhs=" ++ hexNumber rhs
  | .cfEnc lanes => "CF.ENC lanes=[" ++ String.intercalate ", " (lanes.map hexNumber) ++ "]"
  | .cfDec block => "CF.DEC block=" ++ hexBytes block
  | .uLoad => "U.LOAD"
  | .uCol => "U.COL"
  | .uDiag => "U.DIAG"
  | .uFfwd => "U.FFWD"
  | .uSer => "U.SER"

/-- The name of a violation code (60_exceptions.md R231). -/
def codeName (code : BitVec 4) : String :=
  match code.toNat with
  | 1 => "E_CMD"
  | 2 => "E_KEYLEN"
  | 3 => "E_IVLEN"
  | 4 => "E_ROUNDS"
  | 5 => "E_NOTKEYED"
  | 6 => "E_OUTLEN"
  | 7 => "E_BLKLEN"
  | _ => "none"

/-- The text of a payload. -/
def payloadText : Payload → String
  | .none => ""
  | .bytes bs => " " ++ hexBytes bs
  | .value v => " " ++ hexNumber v
  | .lanes vs => " [" ++ String.intercalate ", " (vs.map hexNumber) ++ "]"

/-- The text of a response (R88). -/
def responseText : Response → String
  | .ok payload => "-> OK" ++ payloadText payload
  | .noValue => "-> NOVALUE"
  | .fault code => "-> FAULT(" ++ codeName code ++ ")"

end Sys2Proof.Machine
end

