-- ==== Sys2Proof/Tests/Slice0.lean ====
section
/-! SUPPORT. The model's own tests. Every expected value is from the spec's vectors (95_test_vectors.md; V and
P name the entry) or from the rule cited. The last part shows, for each statement of
Certificates/Slice0/Obligations.lean that has hypotheses, inputs that meet them. -/

namespace Sys2Proof.Tests

open Sys2Proof Sys2Proof.Machine

/-! ### Helpers -/

/-- A number of zero bytes. -/
def zeros (n : Nat) : List Byte := List.replicate n 0#8

/-- The key `00..1f` (V10). -/
def key10 : List Byte := (List.range 32).map (BitVec.ofNat 8)

/-- The IV of V10. -/
def iv10 : List Byte := [0#8, 0#8, 0#8, 0x4a#8, 0#8, 0#8, 0#8, 0#8]

/-- The persistent state of V10 after BC.NEW. -/
def s10 : RegFile :=
  #v[0x61707865#32, 0x3320646e#32, 0x79622d32#32, 0x6b206574#32,
     0x03020100#32, 0x07060504#32, 0x0b0a0908#32, 0x0f0e0d0c#32,
     0x13121110#32, 0x17161514#32, 0x1b1a1918#32, 0x1f1e1d1c#32,
     0x00000000#32, 0x00000000#32, 0x4a000000#32, 0x00000000#32]

/-- `X` after the first U.COL of V10. -/
def col10 : RegFile :=
  #v[0xabbaa25c#32, 0x1efa51ea#32, 0x7354fbdf#32, 0x83d2dc69#32,
     0x3a465196#32, 0x1c7e64f6#32, 0xb12fb628#32, 0xf05b6976#32,
     0x6b3ca454#32, 0x08eb14b1#32, 0xbf8a9ac9#32, 0xe444df3b#32,
     0xdec62ed2#32, 0x8862cc77#32, 0x6e35b345#32, 0x52a647f1#32]

/-- `X` after the tenth U.DIAG of V10. -/
def mixed10 : RegFile :=
  #v[0x837778ab#32, 0xe238d763#32, 0xa67ae21e#32, 0x5950bb2f#32,
     0xc4f2d0c7#32, 0xfc62bb2f#32, 0x8fa018fc#32, 0x3f5ec7b7#32,
     0x335271c2#32, 0xf29489f3#32, 0xeabda8fc#32, 0x82e46ebd#32,
     0xd19c12b4#32, 0xb04e16de#32, 0x9e83d0cb#32, 0x4e3c50a2#32]

/-- `X` after U.FFWD of V10. -/
def sum10 : RegFile :=
  #v[0xe4e7f110#32, 0x15593bd1#32, 0x1fdd0f50#32, 0xc47120a3#32,
     0xc7f4d1c7#32, 0x0368c033#32, 0x9aaa2204#32, 0x4e6cd4c3#32,
     0x466482d2#32, 0x09aa9f07#32, 0x05d7c214#32, 0xa2028bd9#32,
     0xd19c12b5#32, 0xb94e16de#32, 0xe883d0cb#32, 0x4e3c50a2#32]

/-- A state with every register written out: keyed as V10 is, in the 16-bit big-endian flavour. -/
def base : State where
  cfg := Params.reference
  S := s10
  ROUNDS := 20#8
  KEYED := true
  X := Vector.replicate 16 0#32
  CNT := 0x0900000000000001#64
  PH := .idle
  DR := 0#4
  CTR := 0
  ERR := false
  ERRCODE := 0#4
  OUT := []
  BLKO := []
  pending := []
  responses := []
  resetPin := []
  epoch := 0

/-- Whether an answer is a next state with a property. -/
def onNext (o : Result) (p : State → Bool) : Bool :=
  match o with
  | .next t => p t
  | .fault _ => false
  | .refused _ => false

/-- The last response of an answer's next state, in packet form. -/
def answer (o : Result) : List Byte :=
  match o with
  | .next t => (t.responses.getLast?.map (Response.packet t.cfg)).getD []
  | .fault _ => []
  | .refused _ => []

/-! ### WellFormed: one ill-formed term per check (R79) -/

theorem test_wf_key_length (key iv : List Byte) (r : BitVec 8) (h : key.length = 2 ^ 16) :
    (Instr.bcNew key iv r).wellFormed Params.reference = false := by
  simp [Instr.wellFormed, h]

theorem test_wf_iv_length (key iv : List Byte) (r : BitVec 8) (h : iv.length = 2 ^ 16) :
    (Instr.bcNew key iv r).wellFormed Params.reference = false := by
  simp [Instr.wellFormed, h]

theorem test_wf_block_length (block : List Byte) (h : block.length = 2 ^ 16) :
    (Instr.cfDec block).wellFormed Params.reference = false := by
  simp [Instr.wellFormed, h]

theorem test_wf_v_width : (Instr.cfFromb 0x10000).wellFormed Params.reference = false := by decide

theorem test_wf_rhs_width :
    (Instr.cfCadd 0x10000000000000000).wellFormed Params.reference = false := by decide

theorem test_wf_lane_count : (Instr.cfEnc [1, 2, 3, 4, 5, 6, 7]).wellFormed Params.reference = false := by
  decide

theorem test_wf_lane_width :
    (Instr.cfEnc [1, 2, 3, 4, 5, 6, 7, 0x10000]).wellFormed Params.reference = false := by decide

/-- A wrong key length or round count is a command, which raises its violation (R232, R234). -/
theorem test_wf_violating_command : (Instr.bcNew [0x01#8] iv10 10#8).wellFormed Params.reference = true := by
  decide

/-! ### Decoding: one written word per constructor (R78, R80, R85; packets of P1 to P5) -/

/-- P1 line 1. -/
theorem test_decode_bcNew :
    decode Params.reference (.c8 ([0x01#8, 0x20#8, 0x00#8] ++ key10 ++
      [0x08#8, 0x00#8, 0x00#8, 0x00#8, 0x00#8, 0x4a#8, 0x00#8, 0x00#8, 0x00#8, 0x00#8, 0x14#8])) =
      .instr (.bcNew key10 iv10 20#8) := by decide

/-- P1 line 5. -/
theorem test_decode_bcGen :
    decode Params.reference
      (.c8 [0x02#8, 0x01#8, 0#8, 0#8, 0#8, 0#8, 0#8, 0#8, 0x09#8, 0x40#8, 0x00#8]) =
      .instr (.bcGen 0x0900000000000001#64 64#16) := by decide

/-- P2 lines 9, 8 and 2. -/
theorem test_decode_no_operand :
    decode Params.reference (.c8 [0x10#8]) = .instr .cfDef ∧
    decode Params.reference (.c8 [0x12#8]) = .instr .cfTob ∧
    decode Params.reference (.c8 [0x13#8]) = .instr .cfInc := by decide

/-- P4 line 1, `W = 64`. -/
theorem test_decode_cfFromb :
    decode { Params.reference with W := .w64 }
      (.c8 [0x11#8, 0xff#8, 0xff#8, 0xff#8, 0xff#8, 0#8, 0#8, 0#8, 0#8]) =
      .instr (.cfFromb 0xffffffff) := by decide

/-- P2 line 5. -/
theorem test_decode_cfCadd :
    decode Params.reference (.c8 [0x14#8, 0#8, 0#8, 0x01#8, 0#8, 0#8, 0#8, 0#8, 0#8]) =
      .instr (.cfCadd 0x10000) := by decide

/-- P3 line 2. -/
theorem test_decode_cfEnc :
    decode Params.reference
      (.c8 [0x15#8, 0x02#8, 0x01#8, 0x04#8, 0x03#8, 0x06#8, 0x05#8, 0x08#8, 0x07#8,
        0x0a#8, 0x09#8, 0x0c#8, 0x0b#8, 0x0e#8, 0x0d#8, 0xfe#8, 0xff#8]) =
      .instr (.cfEnc [0x0102, 0x0304, 0x0506, 0x0708, 0x090a, 0x0b0c, 0x0d0e, 0xfffe]) := by decide

/-- P3 line 6. -/
theorem test_decode_cfDec :
    decode Params.reference
      (.c8 [0x16#8, 0x10#8, 0x00#8, 0x02#8, 0x01#8, 0x04#8, 0x03#8, 0x06#8, 0x05#8, 0x08#8, 0x07#8,
        0x0a#8, 0x09#8, 0x0c#8, 0x0b#8, 0x0e#8, 0x0d#8, 0x00#8, 0x01#8]) =
      .instr (.cfDec [0x02#8, 0x01#8, 0x04#8, 0x03#8, 0x06#8, 0x05#8, 0x08#8, 0x07#8,
        0x0a#8, 0x09#8, 0x0c#8, 0x0b#8, 0x0e#8, 0x0d#8, 0x00#8, 0x01#8]) := by decide

theorem test_decode_micro_steps :
    decode Params.reference (.u3 0b001#3) = .instr .uLoad ∧
    decode Params.reference (.u3 0b010#3) = .instr .uCol ∧
    decode Params.reference (.u3 0b011#3) = .instr .uDiag ∧
    decode Params.reference (.u3 0b100#3) = .instr .uFfwd ∧
    decode Params.reference (.u3 0b101#3) = .instr .uSer := by decide

/-- R85: codes 000, 110, 111. -/
theorem test_decode_no_micro_step :
    decode Params.reference (.u3 0b000#3) = .error .noMicroStep ∧
    decode Params.reference (.u3 0b110#3) = .error .noMicroStep ∧
    decode Params.reference (.u3 0b111#3) = .error .noMicroStep := by decide

/-- V53. -/
theorem test_decode_unassigned :
    ∀ cmd ∈ [0x00#8, 0x03#8, 0x0f#8, 0x17#8, 0x1f#8, 0x20#8, 0x21#8, 0xff#8],
      decode Params.reference (.c8 [cmd]) = .error .illegalCommand := by decide

/-- R80: a record too short, a record too long, no command word. -/
theorem test_decode_malformed :
    decode Params.reference (.c8 [0x11#8, 0xfe#8]) = .error .malformedPacket ∧
    decode Params.reference (.c8 [0x10#8, 0x00#8]) = .error .malformedPacket ∧
    decode Params.reference (.c8 []) = .error .malformedPacket := by decide

/-- R80: a `rhs` of 10 bits travels in 2 bytes; the bits above it are no value of the operand. -/
theorem test_decode_rhs_excess_bits :
    decode { Params.reference with RW := 10 } (.c8 [0x14#8, 0xff#8, 0x03#8]) = .instr (.cfCadd 0x3ff) ∧
    decode { Params.reference with RW := 10 } (.c8 [0x14#8, 0xff#8, 0x07#8]) = .error .malformedPacket := by
  decide

/-- Words numbered as opcode_table.json numbers them. -/
theorem test_decodeTableWord :
    decodeTableWord 8 0x01 = some (.bcNew [] [] 0#8) ∧ decodeTableWord 8 0x02 = some (.bcGen 0#64 0#16) ∧
    decodeTableWord 8 0x14 = some (.cfCadd 0) ∧ decodeTableWord 8 0x00 = none ∧
    decodeTableWord 3 0b010 = some .uCol ∧ decodeTableWord 8 0b101 = some .uSer := by decide

/-- `withFetchWord` and one step from reset: CF.TOB returns `0000` (V45); BC.GEN is `E_NOTKEYED` (V52). -/
theorem test_withFetchWord :
    answer (step (State.reset.withFetchWord 8 0x12)) = [0x00#8, 0x00#8, 0x00#8] ∧
    answer (step (State.reset.withFetchWord 8 0x02)) = [0x85#8] := by decide

/-! ### Arithmetic and byte order -/

/-- V2, V5, V6. -/
theorem test_quarterRound :
    quarterRound ⟨0x11111111#32, 0x01020304#32, 0x9b8d6f43#32, 0x01234567#32⟩ =
      ⟨0xea2a92f4#32, 0xcb1cf8ce#32, 0x4581472e#32, 0x5881c4bb#32⟩ ∧
    quarterRound ⟨0xffffffff#32, 0xffffffff#32, 0xffffffff#32, 0xffffffff#32⟩ =
      ⟨0xf0000ffd#32, 0x88790878#32, 0x0110fdef#32, 0x010ffdf0#32⟩ ∧
    quarterRound ⟨0#32, 1#32, 0#32, 0#32⟩ = ⟨0x10001001#32, 0x88888808#32, 0x01110110#32, 0x01100110#32⟩ := by
  decide

/-- V3: the stages one by one. -/
theorem test_quarterRound_stages :
    qs1 ⟨0x11111111#32, 0x01020304#32, 0x9b8d6f43#32, 0x01234567#32⟩ =
      ⟨0x12131415#32, 0x01020304#32, 0x9b8d6f43#32, 0x51721330#32⟩ ∧
    qs2 ⟨0x12131415#32, 0x01020304#32, 0x9b8d6f43#32, 0x51721330#32⟩ =
      ⟨0x12131415#32, 0xd8177edf#32, 0xecff8273#32, 0x51721330#32⟩ ∧
    qs3 ⟨0x12131415#32, 0xd8177edf#32, 0xecff8273#32, 0x51721330#32⟩ =
      ⟨0xea2a92f4#32, 0xd8177edf#32, 0xecff8273#32, 0x5881c4bb#32⟩ ∧
    qs4 ⟨0xea2a92f4#32, 0xd8177edf#32, 0xecff8273#32, 0x5881c4bb#32⟩ =
      ⟨0xea2a92f4#32, 0xcb1cf8ce#32, 0x4581472e#32, 0x5881c4bb#32⟩ := by decide

/-- V9. -/
theorem test_quarterRoundInv :
    quarterRoundInv ⟨1#32, 0#32, 0#32, 0#32⟩ = ⟨1#32, 0#32, 0xffffffff#32, 0x00010001#32⟩ := by decide

/-- V20. -/
theorem test_serializer_word :
    le32Enc 0xe4e7f110#32 = [0x10#8, 0xf1#8, 0xe7#8, 0xe4#8] ∧
    le32Enc 0x80000000#32 = [0x00#8, 0x00#8, 0x00#8, 0x80#8] ∧
    le32Dec [0x00#8, 0x00#8, 0x00#8, 0x4a#8] = 0x4a000000#32 := by decide

/-- V13, `rounds = 8`: the block at the command level. -/
theorem test_keystreamBlock_8 :
    (keystreamBlock (zeros 32) (zeros 8) 8#8 0#64).take 16 =
      [0x3e#8, 0x00#8, 0xef#8, 0x2f#8, 0x89#8, 0x5f#8, 0x40#8, 0xd6#8,
       0x7f#8, 0x5b#8, 0xb8#8, 0xe8#8, 0x1f#8, 0x09#8, 0xa5#8, 0xa1#8] := by decide

set_option maxRecDepth 4000 in
/-- V10, the last sixteen bytes. -/
theorem test_keystreamBlock_20 :
    (keystreamBlock key10 iv10 20#8 0x0900000000000001#64).drop 48 =
      [0xb5#8, 0x12#8, 0x9c#8, 0xd1#8, 0xde#8, 0x16#8, 0x4e#8, 0xb9#8,
       0xcb#8, 0xd0#8, 0x83#8, 0xe8#8, 0xa2#8, 0x50#8, 0x3c#8, 0x4e#8] := by decide

/-! ### One step of each instruction -/

/-- V10: the persistent state. -/
theorem test_bcNew_loads :
    onNext (exec (.bcNew key10 iv10 20#8)
        { base with KEYED := false, ROUNDS := 0#8, S := Vector.replicate 16 0xff#32 })
      (fun t => t.S == s10 && t.ROUNDS == 20#8 && t.KEYED) = true := by decide

/-- V52: a 31-byte key and `rounds = 10` is `E_KEYLEN`; a 7-byte IV and `rounds = 10` is `E_IVLEN`. -/
theorem test_bcNew_priority :
    answer (exec (.bcNew (zeros 31) (zeros 8) 10#8) base) = [0x82#8] ∧
    answer (exec (.bcNew (zeros 32) (zeros 7) 10#8) base) = [0x83#8] ∧
    answer (exec (.bcNew (zeros 32) (zeros 8) 10#8) base) = [0x84#8] := by decide

/-- P6 step 0. -/
theorem test_bcGen_starts :
    onNext (exec (.bcGen 0xffffffffffffffff#64 64#16) base)
      (fun t => t.PH == .load && t.CNT == 0xffffffffffffffff#64 && t.responses == []) = true := by decide

/-- V51, V52. -/
theorem test_bcGen_faults :
    answer (exec (.bcGen 0#64 63#16) base) = [0x86#8] ∧
    answer (exec (.bcGen 0#64 10#16) { base with KEYED := false }) = [0x85#8] := by decide

/-- V10: row 4 after U.LOAD. -/
theorem test_uLoad :
    onNext (exec .uLoad { base with PH := .load, DR := 7#4 })
      (fun t => t.X[12] == 0x00000001#32 && t.X[13] == 0x09000000#32 && t.X[14] == 0x4a000000#32 &&
        t.X[3] == 0x6b206574#32 && t.DR == 0#4 && t.PH == .col) = true := by decide

/-- V10: after the first U.COL. -/
theorem test_uCol :
    onNext (exec .uCol { base with PH := .col, X := premix s10 0x0900000000000001#64 })
      (fun t => t.X == col10 && t.PH == .diag) = true := by decide

/-- V10: after the first U.DIAG. -/
theorem test_uDiag :
    onNext (exec .uDiag { base with PH := .diag, X := col10 })
      (fun t => t.X ==
        #v[0xcd52e917#32, 0x85ab03b4#32, 0xb3457395#32, 0xf96de7dd#32,
           0xc4b7cd22#32, 0x5c2e187a#32, 0xc95eb461#32, 0x316c801a#32,
           0x7bf7d740#32, 0x7eddd644#32, 0xf1a1bdf5#32, 0x761246ca#32,
           0x6b0d58a3#32, 0x6798471a#32, 0xd737f167#32, 0xf173888d#32] &&
        t.DR == 1#4 && t.PH == .col) = true := by decide

/-- P6 step 9: the loop ends at `DR = ROUNDS/2`. -/
theorem test_uDiag_ends :
    onNext (exec .uDiag { base with PH := .diag, DR := 3#4, ROUNDS := 8#8 })
      (fun t => t.DR == 4#4 && t.PH == .ffwd) = true := by decide

/-- V10, V21: the feed-forward adds the counter words. -/
theorem test_uFfwd :
    onNext (exec .uFfwd { base with PH := .ffwd, X := mixed10 })
      (fun t => t.X == sum10 && t.PH == .ser) = true := by decide

/-- V10: `OUT[0..3]` and `OUT[60..63]`. -/
theorem test_uSer :
    onNext (exec .uSer { base with PH := .ser, X := sum10, DR := 10#4 })
      (fun t => t.OUT.take 4 == [(0, 0x10#8), (1, 0xf1#8), (2, 0xe7#8), (3, 0xe4#8)] &&
        t.OUT.drop 60 == [(60, 0xa2#8), (61, 0x50#8), (62, 0x3c#8), (63, 0x4e#8)] &&
        t.DR == 0#4 && t.PH == .idle) = true := by decide

/-- V45. -/
theorem test_cfDef : onNext (exec .cfDef { base with CTR := 0x1234 }) (fun t => t.CTR == 0) = true := by decide

/-- P2 line 1. -/
theorem test_cfFromb : onNext (exec (.cfFromb 0xfffe) base) (fun t => t.CTR == 0xfffe) = true := by decide

/-- P2 line 8. -/
theorem test_cfTob : answer (exec .cfTob { base with CTR := 2 }) = [0x00#8, 0x02#8, 0x00#8] := by decide

/-- P2 line 4: the wrap. -/
theorem test_cfInc_wraps :
    answer (exec .cfInc { base with CTR := 0xffff }) = [0x00#8, 0x00#8, 0x00#8] ∧
    onNext (exec .cfInc { base with CTR := 0xffff }) (fun t => t.CTR == 0) = true := by decide

/-- V46, `W = 128`. -/
theorem test_cfInc_wraps_128 :
    onNext (exec .cfInc { base with cfg := { Params.reference with W := .w128 }, CTR := 2 ^ 128 - 1 })
      (fun t => t.CTR == 0) = true := by decide

/-- V40: `8000 + 7fff`, `8000 + 8000`, `0000 + 10000`. -/
theorem test_cfCadd :
    answer (exec (.cfCadd 0x7fff) { base with CTR := 0x8000 }) = [0x00#8, 0xff#8, 0xff#8] ∧
    answer (exec (.cfCadd 0x8000) { base with CTR := 0x8000 }) = [0x01#8] ∧
    answer (exec (.cfCadd 0x10000) base) = [0x01#8] := by decide

/-- V44: `NOVALUE` leaves no trace. -/
theorem test_cfCadd_noValue_no_trace :
    onNext (exec (.cfCadd 1) { base with CTR := 0xffff })
      (fun t => t == { base with CTR := 0xffff, responses := [.noValue] }) = true := by decide

/-- V30, `CTR = 3`: the wrap does not carry into lane 6. -/
theorem test_cfEnc_be :
    answer (exec (.cfEnc [0x0102, 0x0304, 0x0506, 0x0708, 0x090a, 0x0b0c, 0x0d0e, 0xfffe])
        { base with CTR := 3 }) =
      [0x00#8, 0x02#8, 0x01#8, 0x04#8, 0x03#8, 0x06#8, 0x05#8, 0x08#8, 0x07#8,
       0x0a#8, 0x09#8, 0x0c#8, 0x0b#8, 0x0e#8, 0x0d#8, 0x00#8, 0x01#8] := by decide

/-- V34, `ORDER = LE`, `HOST_ORDER = BE`. -/
theorem test_cfEnc_le :
    answer (exec (.cfEnc [0xffffffffffffffff, 0x0001020304050607])
        { base with cfg := ⟨.w64, .le, 2, .be, 64⟩, CTR := 2 }) =
      [0x00#8, 0x01#8, 0#8, 0#8, 0#8, 0#8, 0#8, 0#8, 0#8,
       0x00#8, 0x01#8, 0x02#8, 0x03#8, 0x04#8, 0x05#8, 0x06#8, 0x07#8] := by decide

/-- V37: 32, LE, 4 with `HOST_ORDER = BE`, and 16, BE, 8 with `HOST_ORDER = LE`. -/
theorem test_cfDec :
    decodeBlock ⟨.w32, .le, 4, .be, 64⟩
      [0x00#8, 0x11#8, 0x22#8, 0x33#8, 0x44#8, 0x55#8, 0x66#8, 0x77#8,
       0x88#8, 0x99#8, 0xaa#8, 0xbb#8, 0xcc#8, 0xdd#8, 0xee#8, 0xff#8] =
      [0x33221100, 0x44556677, 0x8899aabb, 0xccddeeff] ∧
    decodeBlock Params.reference
      [0x00#8, 0x11#8, 0x22#8, 0x33#8, 0x44#8, 0x55#8, 0x66#8, 0x77#8,
       0x88#8, 0x99#8, 0xaa#8, 0xbb#8, 0xcc#8, 0xdd#8, 0xee#8, 0xff#8] =
      [0x1100, 0x3322, 0x5544, 0x7766, 0x9988, 0xbbaa, 0xddcc, 0xeeff] := by decide

/-- V51. -/
theorem test_cfDec_faults :
    answer (exec (.cfDec (zeros 15)) base) = [0x87#8] ∧ answer (exec (.cfDec (zeros 32)) base) = [0x87#8] := by
  decide

/-! ### Steps -/

/-- V53 and V54: `0x00` from a ready state is `E_CMD`; while `ERR = 1` it gets the stored code. -/
theorem test_step_unassigned :
    answer (step { base with pending := [[0x00#8]] }) = [0x81#8] ∧
    answer (step { base with pending := [[0x00#8]], ERR := true, ERRCODE := 5#4 }) = [0x85#8] := by decide

/-- P5 lines 5 and 6: CF.INC while `ERR = 1`, then reset. -/
theorem test_step_err_and_reset :
    answer (step { base with pending := [[0x13#8]], ERR := true, ERRCODE := 4#4 }) = [0x84#8] ∧
    onNext (step { base with resetPin := [true], ERR := true, ERRCODE := 4#4, CTR := 7 })
      (fun t => !t.KEYED && !t.ERR && t.ERRCODE == 0#4 && t.CTR == 0) = true := by decide

/-- R262: reset between micro-steps: no response, `OUT` not delivered. -/
theorem test_step_reset_abandons :
    onNext (step { base with resetPin := [true], PH := .ser, DR := 10#4, X := sum10 })
      (fun t => t.PH == .idle && t.DR == 0#4 && t.OUT == [] && t.responses == []) = true := by decide

/-- R88: the text of commands and responses. -/
theorem test_text :
    instrText (.bcGen 0x1#64 63#16) = "BC.GEN counter=0x1, outlen=63" ∧
    instrText (.cfDec [0x0a#8, 0xff#8]) = "CF.DEC block=0a ff" ∧
    responseText (.fault 4#4) = "-> FAULT(E_ROUNDS)" := by decide

/-! ### Inputs that meet the hypotheses of the statements

Each theorem is named after the statement it is a witness for, and shows its hypotheses met, clause by clause
and at the boundaries of each clause. -/

/-- The pre-mixing state of `base`'s BC.GEN. -/
def x10 : RegFile := premix s10 0x0900000000000001#64

/-- `base` with a BC.GEN in progress: in a phase, with `dr` double-rounds done and `x` in `X`. -/
def inPhase (ph : Phase) (dr : BitVec 4) (x : RegFile) : State := { base with PH := ph, DR := dr, X := x }

/-- A next state of an answer exists. -/
abbrev Answers (o : Result) : Prop := onNext o (fun _ => true) = true

theorem base_inv (s : State) (hc : s.cfg = Params.reference) (hS : s.S = s10) (hR : s.ROUNDS = 20#8)
    (hE : s.ERR = false) (hEC : s.ERRCODE = 0#4) (hO : s.OUT = []) (hB : s.BLKO = []) (hCtr : s.CTR = 0)
    (hP : s.Progress) : s.Inv where
  params := by rw [hc]; decide
  counter := by rw [hc, hCtr]; decide
  keyed := fun _ => by
    constructor <;> first | rw [hS]; decide | (rw [hR]; decide)
  err := ⟨fun h => by simp [hE] at h, fun _ => hEC⟩
  progress := hP
  buffers := ⟨by rw [hO]; decide, by rw [hO]; decide, by rw [hB]; decide, by rw [hB]; simp [Memory.within]⟩

theorem base_ready : base.ready := by decide

theorem witness_ResetEventRestoresResetState :
    ({ base with PH := .ser, ERR := true, resetPin := [true, false] } : State).resetPin = true :: [false] := by
  decide

theorem witness_ResetStateMeetsInvariant : Params.reference.WF := by decide

theorem witness_BcNewLoadsState :
    base.ready ∧ key10.length = 32 ∧ iv10.length = 8 ∧
    ∀ r ∈ [8#8, 12#8, 20#8], r = 8#8 ∨ r = 12#8 ∨ r = 20#8 := by decide

theorem witness_BcNewFaultsInOrder :
    base.ready ∧ (zeros 31).length ≠ 32 ∧ (zeros 33).length ≠ 32 ∧ (zeros 32).length = 32 ∧
    (zeros 7).length ≠ 8 ∧ (zeros 9).length ≠ 8 ∧ (zeros 8).length = 8 ∧
    ∀ r ∈ [0#8, 7#8, 9#8, 21#8, 255#8], r ≠ 8#8 ∧ r ≠ 12#8 ∧ r ≠ 20#8 := by decide

theorem witness_BcGenStartsScheduler : base.ready ∧ base.KEYED = true := by decide

theorem witness_BcGenFaultsInOrder :
    ({ base with KEYED := false } : State).ready ∧ ({ base with KEYED := false } : State).KEYED = false ∧
    base.ready ∧ base.KEYED = true ∧ 63#16 ≠ 64#16 ∧ 65#16 ≠ 64#16 := by decide

theorem witness_UFfwdAddsPremixState :
    mixed10[0]? = some 0x837778ab#32 ∧ s10[0]? = some 0x61707865#32 ∧
    mixed10[15]? = some 0x4e3c50a2#32 ∧ s10[15]? = some 0x00000000#32 := by decide

theorem witness_USerSerializesLittleEndian :
    sum10[0]? = some 0xe4e7f110#32 ∧ sum10[15]? = some 0x4e3c50a2#32 ∧ 3 < 4 := by decide

theorem witness_QuarterRoundOrderIsImmaterial :
    colTable.reverse.Perm colTable ∧ diagTable.reverse.Perm diagTable :=
  ⟨List.reverse_perm _, List.reverse_perm _⟩

/-- CfDefClearsCounter, CfFrombLoadsCounter (the largest value), CfTobReturnsCounter and CfIncWraps, with
and without a violation recorded. -/
theorem witness_counter_commands :
    base.PH = .idle ∧ 0xffff < 2 ^ base.cfg.W.bits ∧ base.ERR = false ∧
    ({ base with ERR := true } : State).PH = .idle ∧ ({ base with ERR := true } : State).ERR = true := by decide

theorem witness_CfCaddDetectsOverflow :
    ({ base with CTR := 0x8000 } : State).PH = .idle ∧ ({ base with CTR := 0x8000 } : State).ERR = false ∧
    (0x7fff ≤ 2 ^ base.cfg.W.bits - 1 ∧ 0x8000 + 0x7fff ≤ 2 ^ base.cfg.W.bits - 1) ∧
    0x8000 + 0x8000 > 2 ^ base.cfg.W.bits - 1 ∧ 0x10000 > 2 ^ base.cfg.W.bits - 1 := by decide

theorem witness_IncrementsWrapToClosure :
    ({ base with CTR := 0xffff } : State).ready ∧ 0xffff < 2 ^ base.cfg.W.bits := by decide

theorem witness_IncrementAgainstCheckedAdd :
    ({ base with CTR := 0xfffe } : State).ready ∧ 0xfffe < 2 ^ base.cfg.W.bits - 1 ∧
    ({ base with CTR := 0xffff } : State).ready ∧ 0xffff = 2 ^ base.cfg.W.bits - 1 := by decide

theorem witness_SeekAddsOrRefuses :
    ({ base with CTR := 0x8000 } : State).ready ∧ 0x8000 + 0x7fff < 2 ^ base.cfg.W.bits ∧
    2 ^ base.cfg.W.bits ≤ 0x8000 + 0x8000 := by decide

theorem witness_CfEncBuildsBlock :
    base.PH = .idle ∧ base.ERR = false ∧ [1, 2, 3, 4, 5, 6, 7, 0xfffe].length = base.cfg.N ∧
    7 = (match base.cfg.ORDER with | .be => base.cfg.N - 1 | .le => 0) ∧
    6 ≠ (match base.cfg.ORDER with | .be => base.cfg.N - 1 | .le => 0) := by decide

theorem witness_CfEncLaneCountStops :
    base.ready ∧ [1, 2, 3, 4, 5, 6, 7].length ≠ base.cfg.N ∧
    exec (.cfEnc [1, 2, 3, 4, 5, 6, 7]) base = .fault .laneCount := ⟨by decide, by decide, rfl⟩

theorem witness_CfDecSplitsBlock :
    base.ready ∧ (zeros 16).length = base.cfg.N * (base.cfg.W.bits / 8) ∧ 7 < base.cfg.N := by decide

theorem witness_CfDecFaultsOnLength :
    base.ready ∧ (zeros 15).length ≠ base.cfg.N * (base.cfg.W.bits / 8) ∧
    (zeros 17).length ≠ base.cfg.N * (base.cfg.W.bits / 8) := by decide

theorem witness_EncodeThenDecodeRestoresLanes :
    base.ready ∧ (Instr.cfEnc [1, 2, 3, 4, 5, 6, 0xffff, 0xfffe]).wellFormed base.cfg = true := by decide

theorem witness_DecodeThenEncodeRestoresBlock :
    base.ready ∧ base.CTR = 0 ∧ key10.length = 16 * 2 ∧
    (key10.take 16).length = base.cfg.N * (base.cfg.W.bits / 8) := by decide

/-- A sibling lane under two counters, and the counter lane under one. -/
theorem witness_LanesDoNotInteract :
    let s : State := { base with cfg := ⟨.w32, .be, 2, .le, 64⟩, CTR := 5 }
    let u : State := { s with CTR := 6, S := Vector.replicate 16 0#32 }
    s.ready ∧ u.ready ∧ u.cfg = s.cfg ∧ [1, 2].length = s.cfg.N ∧ [1, 3].length = s.cfg.N ∧ 0 < s.cfg.N ∧
    [1, 2][0]? = [1, 3][0]? ∧ (0 = s.cfg.P → s.CTR = u.CTR) ∧
    [9, 2].length = s.cfg.N ∧ 1 < s.cfg.N ∧ [1, 2][1]? = [9, 2][1]? ∧ 1 = s.cfg.P ∧
    (1 = s.cfg.P → s.CTR = s.CTR) := by decide

theorem witness_ByteOrderIsBijective : 0xffff < 2 ^ (8 * 2) ∧ 0 < 2 ∧ 1 < 2 := by decide

theorem witness_ResponsePackets :
    [1, 2][1]? = some 2 ∧ 1 < Params.reference.K := by decide

theorem witness_WordCodecIsBijective : [0x00#8, 0x01#8, 0x02#8, 0x03#8].length = 4 := by decide

theorem witness_ErrRefusesEveryCommand :
    let s : State := { base with ERR := true, ERRCODE := 7#4, pending := [[0x00#8]] }
    s.PH = .idle ∧ s.ERR = true ∧ Instr.cfTob.isCommand = true ∧
    (Instr.bcNew key10 iv10 20#8).isCommand = true ∧ s.resetAsserted = false ∧ s.pending = [0x00#8] :: [] ∧
    decode s.cfg (.c8 [0x00#8]) = .error .illegalCommand := by decide

theorem witness_BusyCommandIsRefused :
    Instr.cfInc.isCommand = true ∧
    ∀ ph ∈ [Phase.load, .col, .diag, .ffwd, .ser], (inPhase ph 0#4 x10).PH ≠ .idle := by decide

/-- Code 1 and code 7. -/
theorem witness_ViolationsArePrecise :
    base.ERR = false ∧
    onNext (step { base with pending := [[0xff#8]] }) (fun t => t.ERR && t.ERRCODE == 1#4) = true ∧
    onNext (step { base with pending := [[0x16#8, 0#8, 0#8]] }) (fun t => t.ERR && t.ERRCODE == 7#4) = true := by
  decide

theorem witness_UnassignedCommandWordFaults :
    let s : State := { base with pending := [[0x17#8, 0xff#8], [0x13#8]] }
    s.PH = .idle ∧ s.resetAsserted = false ∧ s.pending = (0x17#8 :: [0xff#8]) :: [[0x13#8]] ∧
    (0x17#8).toNat ∉ [0x01, 0x02, 0x10, 0x11, 0x12, 0x13, 0x14, 0x15, 0x16] ∧ s.ERR = false ∧
    ({ s with ERR := true } : State).ERR = true := by decide

theorem witness_StepRunsDecodedCommand :
    let s : State := { base with pending := [[0x11#8, 0xfe#8, 0xff#8], [0x13#8]], resetPin := [false] }
    s.PH = .idle ∧ s.resetAsserted = false ∧ s.pending = [0x11#8, 0xfe#8, 0xff#8] :: [[0x13#8]] ∧
    decode s.cfg (.c8 [0x11#8, 0xfe#8, 0xff#8]) = .instr (.cfFromb 0xfffe) := by decide

theorem witness_StepRunsSelectedMicroStep :
    ∀ ph ∈ [Phase.load, .col, .diag, .ffwd, .ser],
      (inPhase ph 0#4 x10).resetAsserted = false ∧ (inPhase ph 0#4 x10).PH = ph := by decide

theorem witness_StepIdlesOrRefuses :
    base.PH = .idle ∧ base.resetAsserted = false ∧ base.pending = [] ∧
    ({ base with pending := [[0x10#8, 0x00#8]] } : State).pending = [0x10#8, 0x00#8] :: [] ∧
    decode base.cfg (.c8 [0x10#8, 0x00#8]) = .error .malformedPacket := by decide

theorem inv_idle : base.Inv :=
  base_inv base rfl rfl rfl rfl rfl rfl rfl rfl rfl

theorem inv_load : (inPhase .load 0#4 x10).Inv :=
  base_inv _ rfl rfl rfl rfl rfl rfl rfl rfl ⟨⟨rfl, rfl⟩, rfl⟩

theorem inv_col : (inPhase .col 9#4 (doubleRounds 9 x10)).Inv :=
  base_inv _ rfl rfl rfl rfl rfl rfl rfl rfl ⟨⟨rfl, rfl⟩, by decide, rfl⟩

theorem inv_diag : (inPhase .diag 9#4 (colRound (doubleRounds 9 x10))).Inv :=
  base_inv _ rfl rfl rfl rfl rfl rfl rfl rfl ⟨⟨rfl, rfl⟩, by decide, rfl⟩

theorem inv_ffwd : (inPhase .ffwd 10#4 (doubleRounds 10 x10)).Inv :=
  base_inv _ rfl rfl rfl rfl rfl rfl rfl rfl ⟨⟨rfl, rfl⟩, by decide, rfl⟩

theorem inv_ser : (inPhase .ser 10#4 (feedForward (doubleRounds 10 x10) x10)).Inv :=
  base_inv _ rfl rfl rfl rfl rfl rfl rfl rfl ⟨⟨rfl, rfl⟩, by decide, rfl⟩

/-- With a violation recorded and no BC.GEN in progress. -/
theorem inv_err (c : BitVec 4) (q : List (List Byte)) (pins : List Bool) (h1 : 1 ≤ c.toNat) (h7 : c.toNat ≤ 7) :
    ({ base with ERR := true, ERRCODE := c, pending := q, resetPin := pins } : State).Inv :=
  { inv_idle with
    keyed := fun h => (inv_idle.keyed h).of_eq rfl rfl
    err := ⟨fun _ => ⟨h1, h7⟩, fun h => by cases h⟩
    progress := (State.progress_idle rfl).mpr rfl
    buffers := inv_idle.buffers.of_eq rfl rfl rfl }

/-- With a packet and without one, from states of the invariant. -/
theorem witness_ErrIsSticky :
    let s : State := { base with ERR := true, ERRCODE := 4#4, pending := [[0x10#8]], resetPin := [false, true] }
    let u : State := { base with ERR := true, ERRCODE := 7#4 }
    s.ERR = true ∧ s.resetAsserted = false ∧ Answers (step s) ∧ s.Inv ∧
    u.ERR = true ∧ u.resetAsserted = false ∧ Answers (step u) ∧ u.Inv :=
  ⟨by decide, by decide, by decide, inv_err _ _ _ (by decide) (by decide), by decide, by decide, by decide,
    inv_err _ _ _ (by decide) (by decide)⟩

theorem witness_StepIsSafe :
    base.Inv ∧ (inPhase .load 0#4 x10).Inv ∧ (inPhase .col 9#4 (doubleRounds 9 x10)).Inv ∧
    (inPhase .diag 9#4 (colRound (doubleRounds 9 x10))).Inv ∧ (inPhase .ffwd 10#4 (doubleRounds 10 x10)).Inv ∧
    (inPhase .ser 10#4 (feedForward (doubleRounds 10 x10) x10)).Inv :=
  ⟨inv_idle, inv_load, inv_col, inv_diag, inv_ffwd, inv_ser⟩

theorem witness_StepKeepsParameters : Answers (step base) := by decide

theorem witness_StepKeepsInvariant :
    base.Inv ∧ Answers (step base) ∧ (inPhase .load 0#4 x10).Inv ∧ Answers (step (inPhase .load 0#4 x10)) :=
  ⟨inv_idle, by decide, inv_load, by decide⟩

theorem witness_DecodeOfEncode :
    (Instr.cfFromb 0xffff).wellFormed Params.reference = true ∧ Instr.uSer.wellFormed Params.reference = true ∧
    (Instr.cfCadd 0x3ff).wellFormed { Params.reference with RW := 10 } = true := by decide

theorem witness_EncodeOfDecode :
    decode Params.reference (.c8 [0x11#8, 0xff#8, 0xff#8]) = .instr (.cfFromb 0xffff) := by decide

/-- Each register is changed by an instruction of its clause. -/
theorem witness_AccessSummary :
    onNext (exec (.bcNew (zeros 32) iv10 8#8) base) (fun t => t.S != base.S && t.ROUNDS != base.ROUNDS) = true ∧
    onNext (exec .uLoad base) (fun t => t.X != base.X && t.PH != base.PH) = true ∧
    onNext (exec (.bcGen 0#64 64#16) base) (fun t => t.CNT != base.CNT && t.PH != base.PH) = true ∧
    onNext (exec .uDiag base) (fun t => t.DR != base.DR) = true ∧
    onNext (exec .cfInc base) (fun t => t.CTR != base.CTR) = true ∧
    onNext (exec (.cfDec []) base) (fun t => t.ERR != base.ERR && t.ERRCODE != base.ERRCODE) = true ∧
    onNext (exec .uSer base) (fun t => t.OUT != base.OUT) = true ∧
    onNext (exec (.cfEnc [1, 2, 3, 4, 5, 6, 7, 8]) base) (fun t => t.BLKO != base.BLKO) = true := by decide

theorem witness_OneResponsePerCommand :
    onNext (exec .cfInc base) (fun t => t.PH == .idle) = true ∧
    onNext (exec (.bcGen 0#64 64#16) base) (fun t => t.PH != .idle) = true ∧
    onNext (exec (.cfCadd 1) { base with CTR := 0xffff }) (fun t => t.responses == [.noValue]) = true := by decide

theorem witness_CounterFlavorIgnoresBlockCore : ofCounterFlavor (.cfDec []) = true := by decide

theorem witness_BlockCoreIgnoresCounterFlavor :
    ofCounterFlavor (.bcGen 0#64 64#16) = false ∧ ofCounterFlavor .uSer = false := by decide

theorem witness_GenerationIsInvisibleUntilItReturns :
    let s : State := { inPhase .ffwd 10#4 mixed10 with pending := [[0x13#8]] }
    s.PH ≠ .idle ∧ s.resetAsserted = false ∧ onNext (step s) (fun t => t.PH != .idle) = true := by decide

/-- Another key, counter and data in the same phase. -/
theorem witness_ScheduleIgnoresData :
    let s := inPhase .diag 9#4 col10
    let u : State := { s with S := keySchedule (zeros 32) (zeros 8), CNT := 7#64, X := x10, CTR := 3 }
    s.PH ≠ .idle ∧ u.PH = s.PH ∧ u.DR = s.DR ∧ u.ROUNDS = s.ROUNDS ∧ s.resetAsserted = false ∧
    u.resetAsserted = false ∧ u.S ≠ s.S := by decide

theorem witness_GenerationTerminates :
    (inPhase .load 0#4 x10).Inv ∧ (inPhase .load 0#4 x10).PH ≠ .idle ∧ (inPhase .load 0#4 x10).resetPin = [] :=
  ⟨inv_load, by decide, by decide⟩

/-- P1 line 5. -/
def genPacket : List Byte := [0x02#8, 0x01#8, 0#8, 0#8, 0#8, 0#8, 0#8, 0#8, 0x09#8, 0x40#8, 0x00#8]

theorem witness_SchedulerRefinesBcGen :
    let s : State := { base with pending := [genPacket, [0x13#8]] }
    s.Inv ∧ s.ready ∧ s.KEYED = true ∧ s.resetPin = [] ∧ s.pending = genPacket :: [[0x13#8]] ∧
    encode s.cfg (.bcGen 0x0900000000000001#64 64#16) = .c8 genPacket :=
  ⟨base_inv _ rfl rfl rfl rfl rfl rfl rfl rfl rfl, by decide, rfl, rfl, rfl, by decide⟩

theorem witness_NewThenGenReturnsKeystreamBlock :
    let newPacket := [0x01#8, 0x20#8, 0x00#8] ++ key10 ++ [0x08#8, 0x00#8] ++ iv10 ++ [0x14#8]
    let s : State := { base with KEYED := false, pending := [newPacket, genPacket] }
    s.ready ∧ s.resetPin = [] ∧ key10.length = 32 ∧ iv10.length = 8 ∧
    (20#8 = 8#8 ∨ 20#8 = 12#8 ∨ 20#8 = 20#8) ∧
    encode s.cfg (.bcNew key10 iv10 20#8) = .c8 newPacket ∧
    encode s.cfg (.bcGen 0x0900000000000001#64 64#16) = .c8 genPacket ∧
    s.pending = newPacket :: genPacket :: [] := by decide

/-- Two instances with different working state, latches and host sides, keyed alike. -/
theorem witness_BlockDependsOnKeyIvRoundsCounter :
    let s : State := { base with pending := [genPacket] }
    let u : State := { base with X := col10, CNT := 7#64, pending := [genPacket, [0x13#8]] }
    s.Inv ∧ u.Inv ∧ s.ready ∧ u.ready ∧ s.KEYED = true ∧ u.KEYED = true ∧ s.resetPin = [] ∧ u.resetPin = [] ∧
    s.pending = genPacket :: [] ∧ u.pending = genPacket :: [[0x13#8]] ∧
    encode s.cfg (.bcGen 0x0900000000000001#64 64#16) = .c8 genPacket ∧
    (∀ i, 4 ≤ i → i < 12 → s.S[i]? = u.S[i]?) ∧ s.S[14] = u.S[14] ∧ s.S[15] = u.S[15] ∧ s.ROUNDS = u.ROUNDS :=
  ⟨base_inv _ rfl rfl rfl rfl rfl rfl rfl rfl rfl, base_inv _ rfl rfl rfl rfl rfl rfl rfl rfl rfl, by decide,
    by decide, rfl, rfl, rfl, rfl, rfl, rfl, by decide, fun _ _ _ => rfl, rfl, rfl, rfl⟩

end Sys2Proof.Tests
end

section
/-! The pseudo-commands of 30_encoding.md R89. A ready CF.CADD answers either the sum or `NOVALUE`, and each
answer fixes what CF.SEEK does next. -/

namespace Sys2Proof.Machine

variable {s t : State} {rhs : Nat}

@[simp] theorem State.respond_lastResponse (s : State) (r : Response) :
    (s.respond r).lastResponse = some r := by
  simp [State.lastResponse]

theorem fitsWidth_eq_true_iff (p : Params) (v : Nat) : fitsWidth p v = true ↔ v < p.modulus := by
  have := p.modulus_pos
  rw [fitsWidth, decide_eq_true_iff]
  omega

theorem fitsWidth_eq_false_iff (p : Params) (v : Nat) : fitsWidth p v = false ↔ p.modulus ≤ v := by
  rw [← Bool.not_eq_true, fitsWidth_eq_true_iff, Nat.not_lt]

/-- Loading a value of `W` bits loses nothing. -/
theorem State.writeCtr_of_lt {v : Nat} (hv : v < s.cfg.modulus) :
    s.writeCtr v = { s with CTR := v } := by
  rw [State.writeCtr, Nat.mod_eq_of_lt hv]

theorem issue_of_ready {work : State → Result} (h : s.ready) : issue s work = work s :=
  issue_ready h.1 h.2

theorem exec_cfFromb_ready (h : s.ready) (v : Nat) :
    exec (.cfFromb v) s = .next ((s.writeCtr v).respond (.ok .none)) := by
  simp only [exec, execCfFromb, issue_of_ready h]

theorem exec_cfCadd_fits (h : s.ready) (hsum : s.CTR + rhs < s.cfg.modulus) :
    exec (.cfCadd rhs) s = .next (s.respond (.ok (.value (s.CTR + rhs)))) := by
  have hrhs : fitsWidth s.cfg rhs = true := (fitsWidth_eq_true_iff _ _).2 (by omega)
  have hfits : fitsWidth s.cfg (s.CTR + rhs) = true := (fitsWidth_eq_true_iff _ _).2 hsum
  simp [exec, execCfCadd, issue_of_ready h, hrhs, hfits]

/-- Both tests of R204 answer alike, so the sum's overflow alone decides. -/
theorem exec_cfCadd_overflow (h : s.ready) (hsum : s.cfg.modulus ≤ s.CTR + rhs) :
    exec (.cfCadd rhs) s = .next (s.respond .noValue) := by
  have hover : fitsWidth s.cfg (s.CTR + rhs) = false := (fitsWidth_eq_false_iff _ _).2 hsum
  simp [exec, execCfCadd, issue_of_ready h, hover]

/-- A CF.CADD answered with a value is followed by CF.FROMB of that value. -/
theorem cfSeek_of_value {v : Nat} (h : exec (.cfCadd rhs) s = .next (t.respond (.ok (.value v)))) :
    cfSeek rhs s = exec (.cfFromb v) (t.respond (.ok (.value v))) := by
  simp [cfSeek, h]

/-- A CF.CADD answered with `NOVALUE` is followed by nothing. -/
theorem cfSeek_of_noValue (h : exec (.cfCadd rhs) s = .next (t.respond .noValue)) :
    cfSeek rhs s = .next (t.respond .noValue) := by
  simp [cfSeek, h]

theorem cfSeek_fits (h : s.ready) (hsum : s.CTR + rhs < s.cfg.modulus) :
    cfSeek rhs s = .next { s with
      CTR := s.CTR + rhs
      responses := s.responses ++ [.ok (.value (s.CTR + rhs)), .ok .none] } := by
  have hready : (s.respond (.ok (.value (s.CTR + rhs)))).ready := h
  rw [cfSeek_of_value (exec_cfCadd_fits h hsum), exec_cfFromb_ready hready,
    State.writeCtr_of_lt (by simpa using hsum)]
  simp [State.respond]

theorem cfSeek_overflow (h : s.ready) (hsum : s.cfg.modulus ≤ s.CTR + rhs) :
    cfSeek rhs s = .next { s with responses := s.responses ++ [.noValue] } :=
  cfSeek_of_noValue (exec_cfCadd_overflow h hsum)

/-- Settles O22: the sum's fit decides CF.CADD's answer, and with it whether CF.FROMB follows; BC.BLOCK and
CF.NEXT are their expansions by definition. -/
theorem seekAddsOrRefuses : Obligations.SeekAddsOrRefuses := by
  intro s rhs n hready
  exact ⟨cfSeek_fits hready, cfSeek_overflow hready, rfl, rfl⟩

end Sys2Proof.Machine
end

section
/-! The byte order of R17 and the packet of BC.GEN (30_encoding.md R79, R80): what little-endian encoding puts at
each offset, and that the decoder reads a BC.GEN back from its packet. -/

namespace Sys2Proof

theorem toLe_getElem? (v : Nat) {n j : Nat} (hj : j < n) :
    (toLe v n)[j]? = some (BitVec.ofNat 8 (v / 2 ^ (8 * j))) := by
  induction n generalizing v j with
  | zero => omega
  | succ n ih =>
    cases j with
    | zero => simp [toLe]
    | succ j =>
      have hdiv : v / 2 ^ 8 / 2 ^ (8 * j) = v / 2 ^ (8 * (j + 1)) := by
        rw [Nat.div_div_eq_div_mul, ← pow_add, Nat.mul_succ, Nat.add_comm]
      rw [toLe, List.getElem?_cons_succ, ih _ (by omega), hdiv]

theorem le_toLe (v n : Nat) : le (toLe v n) = v % 2 ^ (8 * n) := by
  induction n generalizing v with
  | zero => simp [toLe, le, Nat.mod_one]
  | succ n ih =>
    rw [toLe, le, ih, BitVec.toNat_ofNat, Nat.mul_succ, Nat.add_comm (8 * n), pow_add, Nat.mod_mul]

theorem takeInt_toLe_append {v n : Nat} (hv : v < 2 ^ (8 * n)) (bs : List Byte) :
    takeInt n (toLe v n ++ bs) = some (v, bs) := by
  simp [takeInt, takeBytes, le_toLe, Nat.mod_eq_of_lt hv]

theorem takeRecord_bcGen (p : Params) (counter : BitVec 64) (outLen : BitVec 16) :
    takeRecord p .bcGen (toLe counter.toNat 8 ++ toLe outLen.toNat 2) =
      some (.bcGen counter outLen, []) := by
  have hcounter := takeInt_toLe_append (n := 8) counter.isLt (toLe outLen.toNat 2)
  have houtLen := takeInt_toLe_append (n := 2) outLen.isLt []
  rw [List.append_nil] at houtLen
  rw [takeRecord, hcounter, Option.bind_some, houtLen]
  simp

/-- The packet of a BC.GEN does not depend on the configuration, so it is read back under every configuration. -/
theorem decode_of_encode_bcGen {p q : Params} {counter : BitVec 64} {outLen : BitVec 16}
    {packet : List Byte} (h : encode q (.bcGen counter outLen) = .c8 packet) :
    decode p (.c8 packet) = .instr (.bcGen counter outLen) := by
  have hcmd : commandOf 0x02#8 = some .bcGen := rfl
  obtain rfl := CodeWord.c8.inj h
  simp [decode, decodePacket, hcmd, takeRecord_bcGen, Instr.wellFormed]

end Sys2Proof
end

section
/-! The words and bytes of a block generation: the counter's halves in the pre-mixing state, the feed-forward word
by word, the serializer byte by byte; and with them U.LOAD, U.FFWD and U.SER (R111, R114, R115). -/

namespace Sys2Proof.Machine

theorem counterLow_toNat (c : BitVec 64) : (counterLow c).toNat = c.toNat % 2 ^ 32 := by
  simp [counterLow]

theorem counterHigh_toNat (c : BitVec 64) : (counterHigh c).toNat = c.toNat / 2 ^ 32 := by
  have hc := c.isLt
  rw [counterHigh, BitVec.extractLsb'_toNat, Nat.shiftRight_eq_div_pow, Nat.mod_eq_of_lt (by omega)]

@[simp] theorem premix_getElem_12 (st : RegFile) (c : BitVec 64) :
    (premix st c)[12] = counterLow c := by
  simp [premix]

@[simp] theorem premix_getElem_13 (st : RegFile) (c : BitVec 64) :
    (premix st c)[13] = counterHigh c := by
  simp [premix]

/-- The counter takes words 12 and 13 only. -/
theorem premix_getElem?_of_ne (st : RegFile) (c : BitVec 64) {i : Nat} (h₁₂ : i ≠ 12) (h₁₃ : i ≠ 13) :
    (premix st c)[i]? = st[i]? := by
  simp [premix, h₁₂.symm, h₁₃.symm]

@[simp] theorem feedForward_getElem (x x0 : RegFile) {i : Nat} (hi : i < 16) :
    (feedForward x x0)[i] = x[i] + x0[i] := by
  simp [feedForward, add32]

theorem feedForward_getElem? {x x0 : RegFile} {i : Nat} {a b : Word} (ha : x[i]? = some a)
    (hb : x0[i]? = some b) : (feedForward x x0)[i]? = some (a + b) := by
  obtain ⟨hi, rfl⟩ := Vector.getElem?_eq_some_iff.1 ha
  obtain ⟨_, rfl⟩ := Vector.getElem?_eq_some_iff.1 hb
  rw [Vector.getElem?_eq_getElem hi, feedForward_getElem]

theorem le32Enc_getElem? (w : Word) {j : Nat} (hj : j < 4) :
    (le32Enc w)[j]? = some (BitVec.ofNat 8 (w.toNat / 2 ^ (8 * j))) :=
  toLe_getElem? w.toNat hj

/-- Four bytes a word: byte `4i+j` of a serialized list is byte `j` of word `i`. -/
theorem getElem?_flatMap_le32Enc (ws : List Word) {i j : Nat} {w : Word} (hj : j < 4)
    (hw : ws[i]? = some w) :
    (ws.flatMap le32Enc)[4 * i + j]? = some (BitVec.ofNat 8 (w.toNat / 2 ^ (8 * j))) := by
  induction ws generalizing i with
  | nil => simp at hw
  | cons v ws ih =>
    rw [List.flatMap_cons]
    cases i with
    | zero =>
      obtain rfl : v = w := by simpa using hw
      rw [List.getElem?_append_left (by simp; omega)]
      simpa using le32Enc_getElem? v hj
    | succ i =>
      rw [List.getElem?_append_right (by simp; omega), le32Enc_length,
        show 4 * (i + 1) + j - 4 = 4 * i + j by omega]
      exact ih (by simpa using hw)

@[simp] theorem serialize_length (x : RegFile) : (serialize x).length = 64 := by
  simp [serialize, List.length_flatMap]

theorem serialize_getElem? {x : RegFile} {i j : Nat} {w : Word} (hj : j < 4) (hw : x[i]? = some w) :
    (serialize x)[4 * i + j]? = some (BitVec.ofNat 8 (w.toNat / 2 ^ (8 * j))) :=
  getElem?_flatMap_le32Enc x.toList hj (by simpa using hw)

/-- Settles O7: the new `X` is the pre-mixing state, whose words the counter and `S` give. -/
theorem uLoadBuildsPremixState : Obligations.ULoadBuildsPremixState := by
  intro s
  refine ⟨rfl, { s with X := premix s.S s.CNT, DR := 0#4, PH := .col }, rfl, rfl, ?_, ?_, ?_⟩
  · simp [counterLow_toNat]
  · simp [counterHigh_toNat]
  · exact fun i _ h₁₂ h₁₃ => premix_getElem?_of_ne s.S s.CNT h₁₂ h₁₃

/-- Settles O10: the new `X` is the feed-forward with the pre-mixing state `X0`, which holds the counter in words
12 and 13 and `S` elsewhere. -/
theorem uFfwdAddsPremixState : Obligations.UFfwdAddsPremixState := by
  intro s
  refine ⟨rfl, { s with X := feedForward s.X s.X0, PH := .ser }, rfl, rfl, ?_, ?_, ?_⟩
  · simp [State.X0, counterLow_toNat]
  · simp [State.X0, counterHigh_toNat]
  · intro i x y h₁₂ h₁₃ hx hy
    have hx0 : s.X0[i]? = some y := (premix_getElem?_of_ne s.S s.CNT h₁₂ h₁₃).trans hy
    simp [feedForward_getElem? hx hx0]

/-- Settles O11: the bytes returned are the serializer's, and the same sixty-four are written to `OUT` from
offset 0. -/
theorem uSerSerializesLittleEndian : Obligations.USerSerializesLittleEndian := by
  intro s
  refine ⟨rfl, _, serialize s.X, rfl, rfl, serialize_length _,
    fun i j x hj hx => serialize_getElem? hj hx, fun a => ?_⟩
  simpa using Memory.read_writeBytes s.OUT 0 a (serialize s.X)

end Sys2Proof.Machine
end

section
/-! The round scheduler's run (40_blockcore_construct_generate.md R110 to R117): with no reset applied, what each
phase's step does, then the loop of COL and DIAG, then a whole BC.GEN. The final state is given by the
command-level functions of R101, so that what a block depends on can be read off it. -/

namespace Sys2Proof.Machine

variable {s u : State}

theorem State.dropPin_of_resetPin_nil (hr : s.resetPin = []) : s.dropPin = s := by
  rw [State.dropPin, hr, List.tail_nil, ← hr]

theorem State.resetAsserted_of_resetPin_nil (hr : s.resetPin = []) : s.resetAsserted = false := by
  simp [State.resetAsserted, hr]

/-- With no reset applied, a code word that is fetched and decodes is executed. -/
theorem step_fetched {w : CodeWord} {i : Instr} (hr : s.resetPin = []) (hw : fetchWord s = .word w u)
    (hi : decode u.cfg w = .instr i) : step s = exec i u := by
  simp [step, fetch, State.resetAsserted_of_resetPin_nil hr, State.dropPin_of_resetPin_nil hr, hw, hi]

theorem step_packet {packet : List Byte} {rest : List (List Byte)} {i : Instr} (hr : s.resetPin = [])
    (hp : s.PH = .idle) (hq : s.pending = packet :: rest) (hi : decode s.cfg (.c8 packet) = .instr i) :
    step s = exec i { s with pending := rest } :=
  step_fetched hr (by simp only [fetchWord, hp, hq]) hi

theorem step_microStep {i : Instr} (hr : s.resetPin = []) (hp : s.PH ≠ .idle)
    (hi : decode s.cfg (.u3 s.PH.code) = .instr i) : step s = exec i s := by
  obtain ⟨h, _⟩ | ⟨h, _⟩ | ⟨_, hw⟩ := fetchWord_cases s
  · exact absurd h hp
  · exact absurd h hp
  · exact step_fetched hr hw hi

theorem step_load (hr : s.resetPin = []) (hp : s.PH = .load) : step s = execULoad s :=
  step_microStep (i := .uLoad) hr (by simp [hp]) (by rw [hp]; rfl)

theorem step_col (hr : s.resetPin = []) (hp : s.PH = .col) : step s = execUCol s :=
  step_microStep (i := .uCol) hr (by simp [hp]) (by rw [hp]; rfl)

theorem step_diag (hr : s.resetPin = []) (hp : s.PH = .diag) : step s = execUDiag s :=
  step_microStep (i := .uDiag) hr (by simp [hp]) (by rw [hp]; rfl)

theorem step_ffwd (hr : s.resetPin = []) (hp : s.PH = .ffwd) : step s = execUFfwd s :=
  step_microStep (i := .uFfwd) hr (by simp [hp]) (by rw [hp]; rfl)

theorem step_ser (hr : s.resetPin = []) (hp : s.PH = .ser) : step s = execUSer s :=
  step_microStep (i := .uSer) hr (by simp [hp]) (by rw [hp]; rfl)

/-- One pass of the loop: the two rounds, `DR` counted, the loop test of R113 taken. -/
theorem run_doubleRound (k : Nat) (hr : s.resetPin = []) (hp : s.PH = .col) :
    Host.Core.run core (k + 2) s = Host.Core.run core k { s with
      X := diagRound (colRound s.X)
      DR := s.DR + 1#4
      PH := afterDiag (s.DR + 1#4) s.ROUNDS } := by
  have hdiag := step_diag (s := { s with X := colRound s.X, PH := .diag }) hr rfl
  rw [run_succ (step_col hr hp), run_succ hdiag]

/-- The four bits of `DR` count the double-rounds without wrapping. -/
theorem toNat_succ_of_lt {dr : BitVec 4} (h : dr.toNat + 1 < 2 ^ 4) : (dr + 1#4).toNat = dr.toNat + 1 :=
  BitVec.toNat_add_of_lt h

/-- The loop: with `n + 1` double-rounds still to do, it does them and leaves for FFWD. -/
theorem run_rounds (k n : Nat) (hr : s.resetPin = []) (hp : s.PH = .col)
    (hn : s.DR.toNat + (n + 1) = doubleRoundCount s.ROUNDS) (hlt : doubleRoundCount s.ROUNDS < 2 ^ 4) :
    Host.Core.run core (k + 2 * (n + 1)) s = Host.Core.run core k { s with
      X := tableRounds (n + 1) s.X
      DR := BitVec.ofNat 4 (doubleRoundCount s.ROUNDS)
      PH := .ffwd } := by
  induction n generalizing s with
  | zero =>
    have hDR := toNat_succ_of_lt (dr := s.DR) (by omega)
    have hdone : s.DR + 1#4 = BitVec.ofNat 4 (doubleRoundCount s.ROUNDS) := by
      rw [← hn, ← hDR, BitVec.ofNat_toNat, BitVec.setWidth_eq]
    have hphase : afterDiag (s.DR + 1#4) s.ROUNDS = .ffwd := if_pos (hDR.trans hn)
    rw [run_doubleRound k hr hp, hphase, hdone, tableRounds_succ, tableRound_colTable,
      tableRound_diagTable, tableRounds_zero]
  | succ n ih =>
    have hDR := toNat_succ_of_lt (dr := s.DR) (by omega)
    have hphase : afterDiag (s.DR + 1#4) s.ROUNDS = .col := if_neg (by omega)
    have hrest := ih (s := { s with X := diagRound (colRound s.X), DR := s.DR + 1#4, PH := .col }) hr rfl
      (by simp only [hDR]; omega) hlt
    rw [show k + 2 * (n + 1 + 1) = k + 2 * (n + 1) + 2 by omega, run_doubleRound _ hr hp, hphase,
      tableRounds_succ (n + 1), tableRound_colTable, tableRound_diagTable]
    exact hrest

/-- After the loop: the feed-forward, then its bytes returned and in `OUT` (R114, R115). -/
theorem run_ffwd_ser (hr : s.resetPin = []) (hp : s.PH = .ffwd) :
    Host.Core.run core 2 s = .next (({ s with
      X := feedForward s.X s.X0
      OUT := s.OUT.writeBytes 0 (serialize (feedForward s.X s.X0))
      DR := 0#4
      PH := .idle } : State).respond (.ok (.bytes (serialize (feedForward s.X s.X0))))) := by
  have hser := step_ser (s := { s with X := feedForward s.X s.X0, PH := .ser }) hr rfl
  rw [run_succ (step_ffwd hr hp), run_succ hser, run_zero]

/-- `s` after the BC.GEN whose counter is latched: the block of R101 returned and in `OUT`, the scratch registers
as U.FFWD and U.SER leave them. -/
def State.blockReturned (s : State) : State :=
  ({ s with
    X := feedForward (tableRounds (doubleRoundCount s.ROUNDS) s.X0) s.X0
    OUT := s.OUT.writeBytes 0 (blockBytes s.S s.ROUNDS s.CNT)
    DR := 0#4
    PH := .idle } : State).respond (.ok (.bytes (blockBytes s.S s.ROUNDS s.CNT)))

@[simp] theorem State.blockReturned_responses (s : State) :
    s.blockReturned.responses = s.responses ++ [.ok (.bytes (blockBytes s.S s.ROUNDS s.CNT))] := rfl

@[simp] theorem blockBytes_length (st : RegFile) (r : BitVec 8) (c : BitVec 64) :
    (blockBytes st r c).length = 64 := serialize_length _

/-- The micro-steps of one BC.GEN, `ROUNDS + 3` of them (R117). -/
theorem run_microSteps (hr : s.resetPin = []) (hp : s.PH = .load)
    (hrounds : s.ROUNDS = 8#8 ∨ s.ROUNDS = 12#8 ∨ s.ROUNDS = 20#8) :
    Host.Core.run core (s.ROUNDS.toNat + 3) s = .next s.blockReturned := by
  obtain ⟨hcount, hmin, hmax⟩ := doubleRoundCount_legal hrounds
  obtain ⟨n, hn⟩ : ∃ n, doubleRoundCount s.ROUNDS = n + 1 := ⟨_, (Nat.sub_add_cancel (by omega)).symm⟩
  have hloop := run_rounds (s := { s with X := s.X0, DR := 0#4, PH := .col }) 2 n hr rfl
    (by simpa using hn.symm) (by simp only; omega)
  rw [← hn] at hloop
  rw [show s.ROUNDS.toNat + 3 = 2 + 2 * doubleRoundCount s.ROUNDS + 1 by omega, run_succ (step_load hr hp)]
  exact hloop.trans (run_ffwd_ser hr rfl)

/-- A BC.GEN taken from the host's packets and performed to its response: `ROUNDS + 4` steps (R117). -/
theorem run_bcGen {counter : BitVec 64} {packet : List Byte} {rest : List (List Byte)} (hready : s.ready)
    (hk : s.KEYED = true) (hrounds : s.ROUNDS = 8#8 ∨ s.ROUNDS = 12#8 ∨ s.ROUNDS = 20#8)
    (hr : s.resetPin = []) (hq : s.pending = packet :: rest)
    (hi : decode s.cfg (.c8 packet) = .instr (.bcGen counter 64#16)) :
    Host.Core.run core (s.ROUNDS.toNat + 4) s =
      .next ({ s with pending := rest, CNT := counter, PH := .load } : State).blockReturned := by
  have hstep : step s = .next { s with pending := rest, CNT := counter, PH := .load } := by
    obtain ⟨hidle, hnoErr⟩ := hready
    rw [step_packet hr hidle hq hi]
    simp [exec, execBcGen, issue_ready, hidle, hnoErr, hk]
  rw [run_succ hstep]
  exact run_microSteps hr rfl hrounds

/-- Once keyed, the key and IV words are all of `S` that two states can differ in (R22, R23). -/
theorem State.KeyedState.S_eq (hs : s.KeyedState) (hu : u.KeyedState)
    (hkey : ∀ i, 4 ≤ i → i < 12 → s.S[i]? = u.S[i]?) (h₁₄ : s.S[14] = u.S[14])
    (h₁₅ : s.S[15] = u.S[15]) : s.S = u.S := by
  ext1 i hi
  by_cases hmid : 4 ≤ i ∧ i < 12
  · simpa [hi] using hkey i hmid.1 hmid.2
  · obtain rfl | rfl | rfl | rfl | rfl | rfl | rfl | rfl :
        i = 0 ∨ i = 1 ∨ i = 2 ∨ i = 3 ∨ i = 12 ∨ i = 13 ∨ i = 14 ∨ i = 15 := by omega
    · exact hs.const0.trans hu.const0.symm
    · exact hs.const1.trans hu.const1.symm
    · exact hs.const2.trans hu.const2.symm
    · exact hs.const3.trans hu.const3.symm
    · exact hs.counterLow.trans hu.counterLow.symm
    · exact hs.counterHigh.trans hu.counterHigh.symm
    · exact h₁₄
    · exact h₁₅

/-- Settles O57: the response of each is the block of its state words, round count and counter, and the
invariant makes the state words of the two equal. -/
theorem blockDependsOnKeyIvRoundsCounter : Obligations.BlockDependsOnKeyIvRoundsCounter := by
  intro s u counter packet srest urest hs hu hsready huready hsk huk hsr hur henc hsq huq hkey h₁₄ h₁₅ hR
  have hsK := hs.keyed hsk
  have huK := hu.keyed huk
  have hS : s.S = u.S := hsK.S_eq huK hkey h₁₄ h₁₅
  have hsrun := run_bcGen hsready hsk hsK.rounds hsr hsq (decode_of_encode_bcGen henc)
  have hurun := run_bcGen huready huk huK.rounds hur huq (decode_of_encode_bcGen henc)
  rw [← hR] at hurun
  exact ⟨_, _, blockBytes s.S s.ROUNDS counter, hsrun, hurun, blockBytes_length _ _ _, rfl, by rw [hS]; rfl⟩

end Sys2Proof.Machine
end

section
/-! The quarter-round as the source writes it, and the four registers of an index group (R135): the model's rotation
is the core's, the indices of a group of R86 are distinct, and what a group reads and keeps after a write-back. -/

namespace Sys2Proof.Machine

theorem rotl_eq_rotateLeft (x : Word) {n : Nat} (hn : n < 32) : rotl x n = x.rotateLeft n := by
  rw [rotl, BitVec.rotateLeft_def, Nat.mod_eq_of_lt hn]

/-- The three statements of one stage (R130). -/
theorem hStage_eq (x y z : Word) {n : Nat} (hn : n < 32) :
    hStage x y z n = (x + y, (z ^^^ (x + y)).rotateLeft n) := by
  rw [hStage, add32, rotl_eq_rotateLeft _ hn]

/-- The four indices of a group name four registers. -/
def Group.Distinct (g : Group) : Prop := [g.a, g.b, g.c, g.d].Nodup

/-- R86: no word has two parts in one quarter-round. -/
theorem Group.distinct_of_mem_tables : ∀ g ∈ colTable ++ diagTable, g.Distinct := by
  unfold Group.Distinct
  decide

/-- With distinct indices, no result written back overwrites another. -/
theorem readGroup_writeGroup (x : RegFile) {g : Group} (hg : g.Distinct) (q : Quad) :
    readGroup (writeGroup x g q) g = q := by
  simp only [Group.Distinct, List.nodup_cons, List.mem_cons, not_or, Fin.ext_iff] at hg
  simp [readGroup, writeGroup, hg, eq_comm]

theorem writeGroup_getElem_of_ne (x : RegFile) (g : Group) (q : Quad) {i : Fin 16} (ha : i ≠ g.a)
    (hb : i ≠ g.b) (hc : i ≠ g.c) (hd : i ≠ g.d) : (writeGroup x g q)[i] = x[i] := by
  rw [ne_comm, Ne, Fin.ext_iff] at ha hb hc hd
  simp [writeGroup, ha, hb, hc, hd]

/-- Settles O12: the four stages are the twelve statements, three a stage; a group's distinct indices keep its four
write-backs apart. -/
theorem quarterRoundIsTheSourceSequence : Obligations.QuarterRoundIsTheSourceSequence := by
  constructor
  · intro a b c d
    simp only [quarterRound, hStage_eq, Nat.reduceLT]
  · intro x g hg
    exact ⟨readGroup_writeGroup x (g.distinct_of_mem_tables hg) _,
      fun _ ha hb hc hd => writeGroup_getElem_of_ne x g _ ha hb hc hd⟩

end Sys2Proof.Machine
end

section
/-! Decoding in either byte order what was encoded in it (00_scope.md R17): a value of `n` bytes comes back. -/

namespace Sys2Proof

theorem be_toBe (v n : Nat) : be (toBe v n) = v % 2 ^ (8 * n) := by
  induction n with
  | zero => simp [toBe, be, Nat.mod_one]
  | succ n ih =>
    rw [toBe, be, ih, toBe_length, BitVec.toNat_ofNat, Nat.mul_succ, pow_add, Nat.mod_mul, Nat.mul_comm,
      Nat.add_comm]

theorem decBytes_encBytes (o : ByteOrder) {v n : Nat} (hv : v < 2 ^ (8 * n)) :
    decBytes o (encBytes o v n) = v := by
  cases o with
  | be => rw [decBytes, encBytes, be_toBe, Nat.mod_eq_of_lt hv]
  | le => rw [decBytes, encBytes, le_toLe, Nat.mod_eq_of_lt hv]

@[simp] theorem Params.laneOrder_P (p : Params) : p.laneOrder p.P = p.ORDER := if_pos rfl

theorem Params.laneOrder_of_ne {p : Params} {j : Nat} (hj : j ≠ p.P) : p.laneOrder j = p.HOST_ORDER :=
  if_neg hj

end Sys2Proof
end

section
/-! The CTR block (43_ctr_block_codec.md R180 to R189). Lane `j` of an encoded block is the `K` bytes
`encodeLane` gives, whatever the other lanes; with what CF.ENC and CF.DEC answer when ready, each rule of the
block is read off that. -/

namespace Sys2Proof.Machine

variable {p : Params} {s : State} {lanes : List Nat} {ctr j v : Nat}

@[simp] theorem encodeLane_length (p : Params) (ctr j v : Nat) : (encodeLane p ctr j v).length = p.K :=
  encBytes_length _ _ _

theorem encodeLane_P (p : Params) (ctr v : Nat) :
    encodeLane p ctr p.P v = encBytes p.ORDER (addW p ctr v) p.K := by
  simp [encodeLane]

theorem encodeLane_of_ne (ctr v : Nat) (hj : j ≠ p.P) :
    encodeLane p ctr j v = encBytes p.HOST_ORDER v p.K := by
  simp [encodeLane, hj, Params.laneOrder_of_ne hj]

/-- The counter enters the counter lane only. -/
theorem encodeLane_congr_ctr {ctr' : Nat} (v : Nat) (hctr : j = p.P → ctr = ctr') :
    encodeLane p ctr j v = encodeLane p ctr' j v := by
  by_cases hj : j = p.P
  · rw [hctr hj]
  · rw [encodeLane_of_ne ctr v hj, encodeLane_of_ne ctr' v hj]

theorem decBytes_encodeLane (ctr j : Nat) (hv : v < p.modulus) :
    decBytes (p.laneOrder j) (encodeLane p ctr j v) = if j = p.P then addW p ctr v else v := by
  have hfits : (if j = p.P then addW p ctr v else v) < p.modulus := by
    split
    · exact addW_lt p ctr v
    · exact hv
  exact decBytes_encBytes _ (p.modulus_eq ▸ hfits)

theorem encodeLanesFrom_length (p : Params) (ctr j : Nat) (lanes : List Nat) :
    (encodeLanesFrom p ctr j lanes).length = lanes.length * p.K := by
  induction lanes generalizing j with
  | nil => simp [encodeLanesFrom]
  | cons v vs ih => simp [encodeLanesFrom, ih, Nat.succ_mul, Nat.add_comm]

@[simp] theorem encodeBlock_length (p : Params) (ctr : Nat) (lanes : List Nat) :
    (encodeBlock p ctr lanes).length = lanes.length * p.K := encodeLanesFrom_length p ctr 0 lanes

/-- Each lane's bytes stand `K` after those of the lane before it. -/
theorem bufRead_encodeLanesFrom {i : Nat} (hv : lanes[i]? = some v) :
    bufRead (encodeLanesFrom p ctr j lanes) (p.K * i) p.K = encodeLane p ctr (j + i) v := by
  induction lanes generalizing j i with
  | nil => simp at hv
  | cons w ws ih =>
    cases i with
    | zero =>
      obtain rfl : w = v := by simpa using hv
      simp [bufRead, encodeLanesFrom]
    | succ i =>
      have hrest := ih (j := j + 1) (i := i) (by simpa using hv)
      rw [bufRead] at hrest ⊢
      rw [encodeLanesFrom, List.drop_append, encodeLane_length, Nat.mul_succ, Nat.add_sub_cancel,
        List.drop_of_length_le (by simp), List.nil_append, hrest, Nat.add_right_comm, Nat.add_assoc]

theorem laneChunk_encodeBlock (hv : lanes[j]? = some v) :
    laneChunk p (encodeBlock p ctr lanes) j = encodeLane p ctr j v := by
  rw [laneChunk, encodeBlock, bufRead_encodeLanesFrom hv, Nat.zero_add]

theorem laneChunk_getElem? (p : Params) (block : List Byte) (j : Nat) {k : Nat} (hk : k < p.K) :
    (laneChunk p block j)[k]? = block[p.K * j + k]? := by
  simp [laneChunk, bufRead, hk]

/-- Byte `K·j + k` of the block is byte `k` of lane `j`. -/
theorem encodeBlock_getElem? {k : Nat} (hv : lanes[j]? = some v) (hk : k < p.K) :
    (encodeBlock p ctr lanes)[p.K * j + k]? = (encodeLane p ctr j v)[k]? := by
  rw [← laneChunk_getElem? p _ j hk, laneChunk_encodeBlock hv]

@[simp] theorem decodeBlock_length (p : Params) (block : List Byte) : (decodeBlock p block).length = p.N := by
  simp [decodeBlock]

theorem decodeBlock_getElem? (block : List Byte) (hj : j < p.N) :
    (decodeBlock p block)[j]? = some (decBytes (p.laneOrder j) (laneChunk p block j)) := by
  simp [decodeBlock, hj]

/-- `s` after a CF.ENC of `lanes`: the block in `BLKO` and returned. -/
def State.blockEncoded (s : State) (lanes : List Nat) : State :=
  ({ s with BLKO := s.BLKO.writeBytes 0 (encodeBlock s.cfg s.CTR lanes) } : State).respond
    (.ok (.bytes (encodeBlock s.cfg s.CTR lanes)))

@[simp] theorem State.blockEncoded_cfg (s : State) (lanes : List Nat) :
    (s.blockEncoded lanes).cfg = s.cfg := rfl

@[simp] theorem State.blockEncoded_BLKO (s : State) (lanes : List Nat) :
    (s.blockEncoded lanes).BLKO = s.BLKO.writeBytes 0 (encodeBlock s.cfg s.CTR lanes) := rfl

theorem State.blockEncoded_BLKO_read (s : State) (lanes : List Nat) (a : Nat) :
    (s.blockEncoded lanes).BLKO.read a =
      if a < lanes.length * s.cfg.K then (encodeBlock s.cfg s.CTR lanes)[a]? else s.BLKO.read a := by
  simpa using Memory.read_writeBytes s.BLKO 0 a (encodeBlock s.cfg s.CTR lanes)

/-- `BLKO` holds every byte of the block. -/
theorem State.blockEncoded_BLKO_read_of_isSome {a : Nat}
    (h : (encodeBlock s.cfg s.CTR lanes)[a]?.isSome = true) :
    (s.blockEncoded lanes).BLKO.read a = (encodeBlock s.cfg s.CTR lanes)[a]? := by
  have ha : a < lanes.length * s.cfg.K := by simpa using h
  rw [State.blockEncoded_BLKO_read, if_pos ha]

/-- With a violation recorded every command is turned away (R242). -/
theorem exec_command_of_err {i : Instr} (hi : i.isCommand = true) (hidle : s.PH = .idle) (herr : s.ERR = true) :
    exec i s = .next s.turnedAway := by
  obtain ⟨work, hwork⟩ := exec_command hi
  rw [hwork s]
  exact issue_err hidle herr

theorem exec_cfEnc_ready (h : s.ready) (hlen : lanes.length = s.cfg.N) :
    exec (.cfEnc lanes) s = .next (s.blockEncoded lanes) := by
  simp only [exec, execCfEnc, issue_of_ready h, if_pos hlen, State.blockEncoded]

theorem exec_cfDec_ready {block : List Byte} (h : s.ready) (hlen : block.length = s.cfg.B) :
    exec (.cfDec block) s = .next (s.respond (.ok (.lanes (decodeBlock s.cfg block)))) := by
  simp only [exec, execCfDec, issue_of_ready h, if_neg (not_not.2 hlen)]

/-- Settles O23: the block is `encodeBlock`, lane by lane, and the same bytes are written to `BLKO` from
offset 0. -/
theorem cfEncBuildsBlock : Obligations.CfEncBuildsBlock := by
  intro s lanes hidle hlen
  refine ⟨⟨_, rfl⟩, exec_command_of_err rfl hidle, fun hnoErr => ?_⟩
  refine ⟨_, encodeBlock s.cfg s.CTR lanes, exec_cfEnc_ready ⟨hidle, hnoErr⟩ hlen, rfl, ?_, ?_, ?_⟩
  · rw [encodeBlock_length, hlen, Params.K]
  · intro j v hv
    have hchunk := laneChunk_encodeBlock (p := s.cfg) (ctr := s.CTR) hv
    constructor
    · rintro (rfl : j = s.cfg.P)
      exact hchunk.trans (encodeLane_P s.cfg s.CTR v)
    · intro hj
      exact hchunk.trans (encodeLane_of_ne s.CTR v hj)
  · intro a
    rw [State.blockEncoded_BLKO_read, hlen, Params.K]

/-- Settles O27: CF.DEC cuts the block where CF.ENC put it together, and reads each lane back in the order it was
written in. -/
theorem encodeThenDecodeRestoresLanes : Obligations.EncodeThenDecodeRestoresLanes := by
  intro s lanes hready hwf
  obtain ⟨hlen, hfit⟩ : lanes.length = s.cfg.N ∧ ∀ v ∈ lanes, v < s.cfg.modulus := by
    simpa [Instr.wellFormed] using hwf
  have hB : (encodeBlock s.cfg s.CTR lanes).length = s.cfg.B := by rw [encodeBlock_length, hlen, Params.B]
  refine ⟨_, encodeBlock s.cfg s.CTR lanes, _, _, exec_cfEnc_ready hready hlen, rfl,
    exec_cfDec_ready (s := s.blockEncoded lanes) hready hB, rfl, by simp [hlen], fun j v hv => ?_⟩
  obtain ⟨hj, -⟩ := List.getElem?_eq_some_iff.1 hv
  rw [State.blockEncoded_cfg, decodeBlock_getElem? _ (hlen ▸ hj), laneChunk_encodeBlock hv,
    decBytes_encodeLane _ _ (hfit v (List.mem_of_getElem? hv)), addW, Params.modulus]

/-- Settles O29: the bytes of lane `j` are those of `encodeLane`, which takes nothing of the other lanes and, in a
sibling lane, nothing of `CTR`. -/
theorem lanesDoNotInteract : Obligations.LanesDoNotInteract := by
  intro s u lanes lanes' j hs hu hcfg hlen hlen' hj hlane hctr
  refine ⟨_, _, encodeBlock s.cfg s.CTR lanes, encodeBlock u.cfg u.CTR lanes', exec_cfEnc_ready hs hlen,
    exec_cfEnc_ready hu (by rw [hlen', hcfg]), rfl, rfl, fun k hk => ?_⟩
  have hv : lanes[j]? = some lanes[j] := List.getElem?_eq_getElem (by omega)
  have hbyte := encodeBlock_getElem? (ctr := s.CTR) hv hk
  have hsome : (encodeBlock s.cfg s.CTR lanes)[s.cfg.K * j + k]?.isSome = true := by
    rw [hbyte]
    simpa using hk
  have hagree : (encodeBlock s.cfg s.CTR lanes)[s.cfg.K * j + k]? =
      (encodeBlock u.cfg u.CTR lanes')[s.cfg.K * j + k]? := by
    rw [hbyte, hcfg, encodeBlock_getElem? (hlane ▸ hv) hk, encodeLane_congr_ctr _ hctr]
  refine ⟨hsome, hagree, ?_⟩
  rw [State.blockEncoded_BLKO_read_of_isSome hsome,
    State.blockEncoded_BLKO_read_of_isSome (hagree ▸ hsome), hagree]

end Sys2Proof.Machine
end

section
/-! The counter commands (44_counter_arith.md R200 to R206). What each answers when ready is said once; a run of
CF.INCs is an induction on their number, in which the counter is reduced at every step and so at the end. -/

namespace Sys2Proof.Machine

variable {s t : State}

/-- Reducing modulo `2^W` before the write changes nothing: the write reduces. -/
@[simp] theorem State.writeCtr_mod (s : State) (v : Nat) : s.writeCtr (v % s.cfg.modulus) = s.writeCtr v := by
  rw [State.writeCtr, State.writeCtr, Nat.mod_mod]

theorem exec_cfDef_ready (h : s.ready) : exec .cfDef s = .next ((s.writeCtr 0).respond (.ok .none)) := by
  simp only [exec, execCfDef, issue_of_ready h]

theorem exec_cfTob_ready (h : s.ready) : exec .cfTob s = .next (s.respond (.ok (.value s.CTR))) := by
  simp only [exec, execCfTob, issue_of_ready h]

theorem exec_cfInc_ready (h : s.ready) :
    exec .cfInc s =
      .next ((s.writeCtr (s.CTR + 1)).respond (.ok (.value ((s.CTR + 1) % s.cfg.modulus)))) := by
  simp only [exec, execCfInc, issue_of_ready h, addW, State.writeCtr_mod]

/-- The first of `n + 1` executions answers the state the other `n` start from. -/
theorem execTimes_succ {i : Instr} (n : Nat) (h : exec i s = .next t) :
    execTimes i (n + 1) s = execTimes i n t := by
  rw [execTimes, h]

theorem execTimes_cfInc (n : Nat) (h : s.ready) (hctr : s.CTR < s.cfg.modulus) :
    ∃ rs, execTimes .cfInc n s =
      .next { s with CTR := (s.CTR + n) % s.cfg.modulus, responses := rs } := by
  induction n generalizing s with
  | zero => exact ⟨s.responses, by rw [Nat.add_zero, Nat.mod_eq_of_lt hctr, execTimes]⟩
  | succ n ih =>
    have hinc := exec_cfInc_ready h
    obtain ⟨rs, hrest⟩ := ih (s := (s.writeCtr (s.CTR + 1)).respond _) h (Nat.mod_lt _ s.cfg.modulus_pos)
    have hsum : ((s.CTR + 1) % s.cfg.modulus + n) % s.cfg.modulus = (s.CTR + (n + 1)) % s.cfg.modulus := by
      rw [Nat.mod_add_mod, Nat.add_assoc, Nat.add_comm 1]
    refine ⟨rs, ?_⟩
    rw [execTimes_succ n hinc, hrest, ← hsum]
    rfl

/-- Settles O20: after `2^W` increments the sum `c + 2^W` reduces to `c`. -/
theorem incrementsWrapToClosure : Obligations.IncrementsWrapToClosure := by
  intro s hready hctr
  constructor
  · intro n
    obtain ⟨rs, hrun⟩ := execTimes_cfInc n hready hctr
    exact ⟨_, hrun, rfl⟩
  · obtain ⟨rs, hrun⟩ := execTimes_cfInc (2 ^ s.cfg.W.bits) hready hctr
    have hwrap : (s.CTR + 2 ^ s.cfg.W.bits) % 2 ^ s.cfg.W.bits = s.CTR := by
      rw [Nat.add_mod_right, Nat.mod_eq_of_lt hctr]
    exact ⟨_, hrun, hwrap⟩

/-- Settles O15: zero fits in every width. -/
theorem cfDefClearsCounter : Obligations.CfDefClearsCounter := by
  intro s hidle
  refine ⟨rfl, exec_command_of_err rfl hidle, fun hnoErr => ?_⟩
  rw [exec_cfDef_ready ⟨hidle, hnoErr⟩, State.writeCtr_of_lt s.cfg.modulus_pos]
  rfl

/-- Settles O16: a `W`-bit value is `W/8` bytes in the packet and is loaded whole. -/
theorem cfFrombLoadsCounter : Obligations.CfFrombLoadsCounter := by
  intro s v hidle hv
  have hbytes : le (toLe v s.cfg.K) = v := by
    rw [le_toLe, ← s.cfg.bits_eq, Nat.mod_eq_of_lt hv]
  refine ⟨⟨_, rfl, toLe_length v s.cfg.K, hbytes⟩, exec_command_of_err rfl hidle, fun hnoErr => ?_⟩
  rw [exec_cfFromb_ready ⟨hidle, hnoErr⟩, State.writeCtr_of_lt hv]
  rfl

/-- Settles O17: what CF.FROMB loads is what CF.TOB then returns. -/
theorem cfTobReturnsCounter : Obligations.CfTobReturnsCounter := by
  intro s hidle
  refine ⟨rfl, exec_command_of_err rfl hidle, fun hnoErr => ?_⟩
  have hready : s.ready := ⟨hidle, hnoErr⟩
  refine ⟨exec_cfTob_ready hready, fun v hv => ?_⟩
  have hfromb := exec_cfFromb_ready hready v
  rw [State.writeCtr_of_lt hv] at hfromb
  exact ⟨_, _, hfromb, exec_cfTob_ready hready, rfl⟩

/-- Settles O18: the counter is written with the reduced sum, which the response carries. -/
theorem cfIncWraps : Obligations.CfIncWraps := by
  intro s hidle
  exact ⟨rfl, exec_command_of_err rfl hidle, fun hnoErr => exec_cfInc_ready ⟨hidle, hnoErr⟩⟩

/-- Settles O19: an `rhs` too wide makes the sum too wide, so the sum alone decides. -/
theorem cfCaddDetectsOverflow : Obligations.CfCaddDetectsOverflow := by
  intro s rhs hidle
  have hpos : 0 < 2 ^ s.cfg.W.bits := s.cfg.modulus_pos
  refine ⟨⟨_, rfl⟩, exec_command_of_err rfl hidle, fun hnoErr _ hsum => ?_, fun hnoErr hover => ?_⟩
  · have hfits : s.CTR + rhs < 2 ^ s.cfg.W.bits := by omega
    exact exec_cfCadd_fits ⟨hidle, hnoErr⟩ hfits
  · have hexceeds : 2 ^ s.cfg.W.bits ≤ s.CTR + rhs := by omega
    exact exec_cfCadd_overflow ⟨hidle, hnoErr⟩ hexceeds

/-- Settles O21: the two commands differ only where `CTR + 1` reaches `2^W`. -/
theorem incrementAgainstCheckedAdd : Obligations.IncrementAgainstCheckedAdd := by
  intro s hready
  have hpos : 0 < 2 ^ s.cfg.W.bits := s.cfg.modulus_pos
  have hinc := exec_cfInc_ready hready
  constructor
  · intro hbelow
    have hfits : s.CTR + 1 < s.cfg.modulus := Nat.add_lt_of_lt_sub hbelow
    rw [State.writeCtr_of_lt hfits] at hinc
    exact ⟨_, _, hinc, exec_cfCadd_fits hready hfits, rfl⟩
  · intro hmax
    have hsum : s.CTR + 1 = s.cfg.modulus := by rw [hmax]; exact Nat.sub_add_cancel hpos
    rw [hsum] at hinc
    exact ⟨_, _, hinc, Nat.mod_self _, exec_cfCadd_overflow hready hsum.ge, rfl⟩

end Sys2Proof.Machine
end

section
/-! Violations (60_exceptions.md R232 to R242). What each checking command answers on each of its violations is said
once; a step that sets `ERR` is traced back through fetch and exec to the one place that raises. -/

namespace Sys2Proof.Machine

variable {s t u : State}

theorem State.violate_eq_faultedWith (s : State) (v : Violation) : s.violate v = s.faultedWith v.code := rfl

theorem Violation.code_range (v : Violation) : 1 ≤ v.code.toNat ∧ v.code.toNat ≤ 7 := by
  cases v <;> decide

theorem legalRounds_eq_false_of_ne {r : BitVec 8} (h8 : r ≠ 8#8) (h12 : r ≠ 12#8) (h20 : r ≠ 20#8) :
    legalRounds r = false := by
  rw [← Bool.not_eq_true, legalRounds_iff]
  simp only [h8, h12, h20, or_self, not_false_iff]

theorem exec_bcNew_keyLen {key iv : List Byte} {r : BitVec 8} (h : s.ready) (hkey : key.length ≠ 32) :
    exec (.bcNew key iv r) s = .next (s.violate .keyLen) := by
  simp only [exec, execBcNew, issue_of_ready h, if_pos hkey, raiseViolation]

theorem exec_bcNew_ivLen {key iv : List Byte} {r : BitVec 8} (h : s.ready) (hkey : key.length = 32)
    (hiv : iv.length ≠ 8) : exec (.bcNew key iv r) s = .next (s.violate .ivLen) := by
  simp only [exec, execBcNew, issue_of_ready h, if_neg (not_not.2 hkey), if_pos hiv, raiseViolation]

theorem exec_bcNew_rounds {key iv : List Byte} {r : BitVec 8} (h : s.ready) (hkey : key.length = 32)
    (hiv : iv.length = 8) (hr : legalRounds r = false) :
    exec (.bcNew key iv r) s = .next (s.violate .rounds) := by
  simp only [exec, execBcNew, issue_of_ready h, if_neg (not_not.2 hkey), if_neg (not_not.2 hiv), if_pos hr,
    raiseViolation]

theorem exec_bcGen_notKeyed {counter : BitVec 64} {outLen : BitVec 16} (h : s.ready) (hk : s.KEYED = false) :
    exec (.bcGen counter outLen) s = .next (s.violate .notKeyed) := by
  simp only [exec, execBcGen, issue_of_ready h, if_pos hk, raiseViolation]

theorem exec_bcGen_outLen {counter : BitVec 64} {outLen : BitVec 16} (h : s.ready) (hk : s.KEYED = true)
    (hout : outLen ≠ 64#16) : exec (.bcGen counter outLen) s = .next (s.violate .outLen) := by
  have hkeyed : ¬s.KEYED = false := by simp [hk]
  simp only [exec, execBcGen, issue_of_ready h, if_neg hkeyed, if_pos hout, raiseViolation]

theorem exec_cfDec_blkLen {block : List Byte} (h : s.ready) (hlen : block.length ≠ s.cfg.B) :
    exec (.cfDec block) s = .next (s.violate .blkLen) := by
  simp only [exec, execCfDec, issue_of_ready h, if_pos hlen, raiseViolation]

/-- An unassigned command word is issued like a command, its one effect being `E_CMD` (R83, R238, R239). -/
theorem step_illegalCommand {packet : List Byte} {rest : List (List Byte)} (hr : s.resetAsserted = false)
    (hidle : s.PH = .idle) (hq : s.pending = packet :: rest)
    (hd : decode s.cfg (.c8 packet) = .error .illegalCommand) :
    step s = issue { s.dropPin with pending := rest } (raiseViolation .cmd) := by
  have hfetch : fetch s = .word (.c8 packet) { s.dropPin with pending := rest } := by
    simp [fetch, hr, fetchWord, hidle, hq]
  simp [step, hfetch, hd, rejectWord]

/-- `ERR` is changed by no instruction but a command that takes a violation, and so with no BC.GEN in
progress. -/
theorem exec_next_err {i : Instr} (h : exec i s = .next t) :
    t.ERR = s.ERR ∨ (s.PH = .idle ∧ ∃ v, t = s.violate v) := by
  cases i with
  | bcNew key iv r =>
    obtain ⟨hidle, ⟨-, rfl⟩ | ⟨-, ⟨-, rfl⟩ | ⟨-, -, rfl⟩ | ⟨-, -, -, rfl⟩ | ⟨-, -, -, -, rfl⟩⟩⟩ :=
      execBcNew_next h
    · exact .inl rfl
    · exact .inr ⟨hidle, _, rfl⟩
    · exact .inr ⟨hidle, _, rfl⟩
    · exact .inr ⟨hidle, _, rfl⟩
    · exact .inl rfl
  | bcGen counter outLen =>
    obtain ⟨hidle, ⟨-, rfl⟩ | ⟨-, ⟨-, rfl⟩ | ⟨-, -, rfl⟩ | ⟨-, -, rfl⟩⟩⟩ := execBcGen_next h
    · exact .inl rfl
    · exact .inr ⟨hidle, _, rfl⟩
    · exact .inr ⟨hidle, _, rfl⟩
    · exact .inl rfl
  | cfDec block =>
    obtain ⟨hidle, ⟨-, rfl⟩ | ⟨-, ⟨-, rfl⟩ | ⟨-, rfl⟩⟩⟩ := execCfDec_next h
    · exact .inl rfl
    · exact .inr ⟨hidle, _, rfl⟩
    · exact .inl rfl
  | cfDef => obtain ⟨-, ⟨-, rfl⟩ | ⟨-, rfl⟩⟩ := execCfDef_next h <;> exact .inl rfl
  | cfFromb v => obtain ⟨-, ⟨-, rfl⟩ | ⟨-, rfl⟩⟩ := execCfFromb_next h <;> exact .inl rfl
  | cfTob => obtain ⟨-, ⟨-, rfl⟩ | ⟨-, rfl⟩⟩ := execCfTob_next h <;> exact .inl rfl
  | cfInc => obtain ⟨-, ⟨-, rfl⟩ | ⟨-, rfl⟩⟩ := execCfInc_next h <;> exact .inl rfl
  | cfCadd rhs => obtain ⟨-, ⟨-, rfl⟩ | ⟨-, _, rfl, -⟩⟩ := execCfCadd_next h <;> exact .inl rfl
  | cfEnc lanes => obtain ⟨-, ⟨-, rfl⟩ | ⟨-, -, rfl⟩⟩ := execCfEnc_next h <;> exact .inl rfl
  | uLoad | uCol | uDiag | uFfwd | uSer => cases h; exact .inl rfl

/-- Fetching a code word leaves `PH` as it is, so one fetched at IDLE is the host's next packet. -/
theorem fetchWord_word_idle {w : CodeWord} (h : fetchWord s = .word w u) (hidle : u.PH = .idle) :
    s.PH = .idle ∧ u = { s with pending := s.pending.tail } := by
  obtain ⟨-, -, hf⟩ | ⟨hp, packet, rest, hq, hf⟩ | ⟨hp, hf⟩ := fetchWord_cases s
  · cases hf.symm.trans h
  · cases hf.symm.trans h
    exact ⟨hp, by rw [hq, List.tail_cons]⟩
  · cases hf.symm.trans h
    exact absurd hidle hp

theorem fetchWord_word_err {w : CodeWord} (h : fetchWord s = .word w u) : u.ERR = s.ERR := by
  obtain ⟨-, -, hf⟩ | ⟨-, _, _, -, hf⟩ | ⟨-, hf⟩ := fetchWord_cases s <;> cases hf.symm.trans h <;> rfl

theorem fetchWord_idle_eq (h : fetchWord s = .idle t) : t = s := by
  obtain ⟨-, -, hf⟩ | ⟨-, _, _, -, hf⟩ | ⟨-, hf⟩ := fetchWord_cases s <;> cases hf.symm.trans h
  rfl

/-- A step that sets `ERR` takes a violation, from the state the fetch of a packet leaves. -/
theorem step_sets_err (h : step s = .next t) (hs : s.ERR = false) (ht : t.ERR = true) :
    s.PH = .idle ∧ ∃ v, t = State.violate { s.dropPin with pending := s.pending.tail } v := by
  have hne : t.ERR ≠ s.ERR := by simp [hs, ht]
  obtain ⟨-, rfl⟩ | ⟨-, hidle⟩ | ⟨-, w, u, hfetch, ⟨-, hissue⟩ | ⟨i, -, hexec⟩⟩ := step_next h
  · simp at ht
  · exact absurd (by rw [fetchWord_idle_eq hidle, State.dropPin_ERR]) hne
  · obtain ⟨hp, ⟨-, rfl⟩ | ⟨-, hraise⟩⟩ := issue_next hissue
    · exact absurd (fetchWord_word_err hfetch) hne
    · obtain ⟨hidle, rfl⟩ := fetchWord_word_idle hfetch hp
      exact ⟨hidle, .cmd, raiseViolation_next hraise⟩
  · obtain hkept | ⟨hp, v, rfl⟩ := exec_next_err hexec
    · exact absurd (hkept.trans (fetchWord_word_err hfetch)) hne
    · obtain ⟨hidle, rfl⟩ := fetchWord_word_idle hfetch hp
      exact ⟨hidle, v, rfl⟩

/-- Settles O34: `ERR` is set by a violation only, and every violation has a code from 1 to 7. -/
theorem violationsArePrecise : Obligations.ViolationsArePrecise := by
  intro s t hstep hs ht
  obtain ⟨hidle, v, rfl⟩ := step_sets_err hstep hs ht
  obtain ⟨hlow, hhigh⟩ := v.code_range
  exact ⟨hidle, hlow, hhigh, State.violate_eq_faultedWith _ v⟩

/-- Settles O4: each check is reached only when those before it pass. -/
theorem bcNewFaultsInOrder : Obligations.BcNewFaultsInOrder := by
  intro s key iv r hready
  exact ⟨exec_bcNew_keyLen hready, exec_bcNew_ivLen hready, fun hkey hiv h8 h12 h20 =>
    exec_bcNew_rounds hready hkey hiv (legalRounds_eq_false_of_ne h8 h12 h20)⟩

/-- Settles O6: `KEYED` is tested first, whatever the length. -/
theorem bcGenFaultsInOrder : Obligations.BcGenFaultsInOrder := by
  intro s counter outLen hready
  exact ⟨exec_bcGen_notKeyed hready, exec_bcGen_outLen hready⟩

/-- Settles O26: the length CF.DEC tests for is `B = N × K`. -/
theorem cfDecFaultsOnLength : Obligations.CfDecFaultsOnLength := by
  intro s block hready hlen
  exact exec_cfDec_blkLen hready hlen

/-- Settles O32: a command and an unassigned command word are both issued, and `ERR` is tested before either's
own work. -/
theorem errRefusesEveryCommand : Obligations.ErrRefusesEveryCommand := by
  intro s hidle herr
  refine ⟨fun i hi => exec_command_of_err hi hidle herr, fun packet rest hr hq hd => ?_⟩
  rw [step_illegalCommand hr hidle hq hd]
  exact issue_err hidle herr

end Sys2Proof.Machine
end

section
/-! Both byte orders (00_scope.md R17): the big-endian encoding is the little-endian one reversed, so what holds of
one holds of the other; and encoding undoes decoding. With them the words of R163 and R166, and the packet form
of responses (30_encoding.md R84). -/

namespace Sys2Proof

theorem toLe_succ_append (v n : Nat) : toLe v (n + 1) = toLe v n ++ [BitVec.ofNat 8 (v / 2 ^ (8 * n))] := by
  induction n generalizing v with
  | zero => simp [toLe]
  | succ n ih =>
    have hdiv : v / 2 ^ 8 / 2 ^ (8 * n) = v / 2 ^ (8 * (n + 1)) := by
      rw [Nat.div_div_eq_div_mul, ← pow_add, Nat.mul_succ, Nat.add_comm]
    rw [toLe, ih, hdiv, toLe, List.cons_append]

theorem toBe_eq_reverse_toLe (v n : Nat) : toBe v n = (toLe v n).reverse := by
  induction n with
  | zero => rfl
  | succ n ih => rw [toBe, ih, toLe_succ_append, List.reverse_concat]

theorem le_append_singleton (b : List Byte) (x : Byte) :
    le (b ++ [x]) = x.toNat * 2 ^ (8 * b.length) + le b := by
  induction b with
  | nil => simp [le]
  | cons y b ih =>
    rw [List.cons_append, le, ih, le, List.length_cons, Nat.mul_succ, pow_add]
    ring

theorem be_eq_le_reverse (b : List Byte) : be b = le b.reverse := by
  induction b with
  | nil => rfl
  | cons x b ih => rw [be, ih, List.reverse_cons, le_append_singleton, List.length_reverse]

theorem toLe_le (b : List Byte) : toLe (le b) b.length = b := by
  induction b with
  | nil => rfl
  | cons x b ih =>
    have hx := x.isLt
    have hbyte : BitVec.ofNat 8 (x.toNat + 2 ^ 8 * le b) = x := by
      apply BitVec.eq_of_toNat_eq
      rw [BitVec.toNat_ofNat]
      omega
    have hrest : (x.toNat + 2 ^ 8 * le b) / 2 ^ 8 = le b := by omega
    rw [le, List.length_cons, toLe, hbyte, hrest, ih]

theorem toBe_be (b : List Byte) : toBe (be b) b.length = b := by
  have h := toLe_le b.reverse
  rw [List.length_reverse] at h
  rw [toBe_eq_reverse_toLe, be_eq_le_reverse, h, List.reverse_reverse]

theorem encBytes_decBytes (o : ByteOrder) (b : List Byte) : encBytes o (decBytes o b) b.length = b := by
  cases o with
  | be => exact toBe_be b
  | le => exact toLe_le b

theorem toBe_getElem? (v : Nat) {n i : Nat} (hi : i < n) :
    (toBe v n)[i]? = some (BitVec.ofNat 8 (v / 2 ^ (8 * (n - 1 - i)))) := by
  rw [toBe_eq_reverse_toLe, List.getElem?_reverse (by simpa using hi), toLe_length,
    toLe_getElem? v (by omega)]

theorem le_eq_sum (b : List Byte) :
    le b = ∑ i ∈ Finset.range b.length, (b.getD i 0#8).toNat * 2 ^ (8 * i) := by
  induction b with
  | nil => rfl
  | cons x b ih =>
    rw [le, ih, List.length_cons, Finset.sum_range_succ', Finset.mul_sum]
    simp only [List.getD_cons_succ, List.getD_cons_zero, Nat.mul_succ, pow_add]
    rw [Nat.add_comm]
    congr 1
    · exact Finset.sum_congr rfl fun i _ => by ring
    · simp

theorem be_eq_sum (b : List Byte) :
    be b = ∑ i ∈ Finset.range b.length, (b.getD i 0#8).toNat * 2 ^ (8 * (b.length - 1 - i)) := by
  induction b with
  | nil => rfl
  | cons x b ih =>
    have hexp (i : Nat) : b.length + 1 - 1 - (i + 1) = b.length - 1 - i := by omega
    rw [be, ih, List.length_cons, Finset.sum_range_succ']
    simp only [List.getD_cons_succ, List.getD_cons_zero, hexp]
    rw [Nat.add_comm, Nat.add_sub_cancel, Nat.sub_zero]

/-- Settles O30: the little-endian half by recursion on the bytes, the big-endian one by reversal. -/
theorem byteOrderIsBijective : Obligations.ByteOrderIsBijective :=
  ⟨fun v _ _ hi => ⟨toLe_getElem? v hi, toBe_getElem? v hi⟩, encBytes_length,
    fun b => ⟨le_eq_sum b, be_eq_sum b⟩, fun o _ _ hv => decBytes_encBytes o hv, encBytes_decBytes⟩

/-- Encoding in `n` bytes keeps the low `8n` bits only. -/
theorem toLe_mod (v n : Nat) : toLe (v % 2 ^ (8 * n)) n = toLe v n := by
  have h := toLe_le (toLe v n)
  rwa [le_toLe, toLe_length] at h

/-- A list cut into pieces of one length: piece `j` stands `j` lengths from the start. -/
theorem take_drop_flatMap {α β : Type} {f : α → List β} {n j : Nat} {l : List α} {x : α}
    (hf : ∀ a, (f a).length = n) (hx : l[j]? = some x) : ((l.flatMap f).drop (n * j)).take n = f x := by
  induction l generalizing j with
  | nil => simp at hx
  | cons a l ih =>
    cases j with
    | zero =>
      obtain rfl : a = x := by simpa using hx
      simp [← hf a]
    | succ j =>
      rw [List.flatMap_cons, List.drop_append, hf, Nat.mul_succ, Nat.add_sub_cancel,
        List.drop_of_length_le (by simp [hf]), List.nil_append, ih (by simpa using hx)]

namespace Machine

theorem le32Dec_toNat {b : List Byte} (hb : b.length = 4) : (le32Dec b).toNat = le b := by
  have hlt := le_lt b
  rw [hb] at hlt
  rw [le32Dec, BitVec.toNat_ofNat, Nat.mod_eq_of_lt hlt]

theorem le32Enc_le32Dec {b : List Byte} (hb : b.length = 4) : le32Enc (le32Dec b) = b := by
  rw [le32Enc, le32Dec_toNat hb, ← hb, toLe_le]

theorem le32Dec_le32Enc (w : Word) : le32Dec (le32Enc w) = w := by
  have hval : le (le32Enc w) = w.toNat := by rw [le32Enc, le_toLe, Nat.mod_eq_of_lt w.isLt]
  rw [le32Dec, hval, BitVec.ofNat_toNat, BitVec.setWidth_eq]

/-- Settles O31: `LE32DEC` loses nothing of four bytes, whose little-endian value is below `2^32`. -/
theorem wordCodecIsBijective : Obligations.WordCodecIsBijective := by
  refine ⟨fun b0 b1 b2 b3 => ?_, le32Dec_le32Enc, fun b => le32Enc_le32Dec⟩
  rw [le32Dec_toNat rfl]
  simp only [le]
  omega

/-- The `K` bytes of a `W`-bit field hold its value modulo `2^W`. -/
theorem le_toLe_K (p : Params) (v : Nat) : le (toLe v p.K) = v % 2 ^ p.W.bits := by
  rw [le_toLe, ← p.bits_eq]

theorem toLe_K_getElem? (p : Params) (v : Nat) {k : Nat} (hk : k < p.K) :
    (toLe v p.K)[k]? = some (BitVec.ofNat 8 (v % 2 ^ p.W.bits / 2 ^ (8 * k))) := by
  rw [p.bits_eq, ← toLe_mod, toLe_getElem? _ hk]

theorem faultStatus_toNat (code : BitVec 4) : (Response.fault code).status.toNat = 0x80 + code.toNat := by
  have := code.isLt
  rw [Response.status, BitVec.toNat_add, BitVec.toNat_setWidth, BitVec.toNat_ofNat]
  omega

/-- Settles O46: lane `j` of a payload is the `K` bytes at `K·j`. -/
theorem responsePackets : Obligations.ResponsePackets := by
  intro p code bs v vs
  refine ⟨rfl, rfl, ⟨_, rfl, toLe_length v p.K, le_toLe_K p v, fun k => toLe_K_getElem? p v⟩,
    ⟨vs.flatMap fun v => toLe v p.K, rfl, ?_, fun j x hx => ?_⟩, rfl, by
      rw [Response.packet, List.map_singleton, faultStatus_toNat]⟩
  · simp [List.length_flatMap]
  · have hlane := take_drop_flatMap (f := fun v => toLe v p.K) (fun a => toLe_length a p.K) hx
    refine ⟨by rw [hlane, le_toLe_K], fun k hk => ?_⟩
    rw [← toLe_K_getElem? p x hk, ← hlane, List.getElem?_take_of_lt hk, List.getElem?_drop]

end Machine

end Sys2Proof
end

section
/-! The decoder and the encoder (30_encoding.md R77 to R85). What each field reader answers is said by an `↔`: the
value, and that the bytes are its encoding and then the rest. An operand record is a chain of fields, so both
directions of the round trip read the same equivalences. -/

namespace Sys2Proof

variable {p : Params}

theorem takeBytes_eq_some_iff {n : Nat} {bs xs rest : List Byte} :
    takeBytes n bs = some (xs, rest) ↔ xs.length = n ∧ bs = xs ++ rest := by
  constructor
  · intro h
    obtain ⟨hn, heq⟩ : n ≤ bs.length ∧ (bs.take n, bs.drop n) = (xs, rest) := by
      simpa [takeBytes] using h
    obtain ⟨rfl, rfl⟩ := Prod.mk.inj heq
    exact ⟨List.length_take_of_le hn, (List.take_append_drop n bs).symm⟩
  · rintro ⟨rfl, rfl⟩
    simp [takeBytes]

theorem takeInt_eq_some_iff {n v : Nat} {bs rest : List Byte} :
    takeInt n bs = some (v, rest) ↔ v < 2 ^ (8 * n) ∧ bs = toLe v n ++ rest := by
  constructor
  · intro h
    obtain ⟨⟨xs, ys⟩, htake, heq⟩ := Option.map_eq_some_iff.1 h
    obtain ⟨rfl, rfl⟩ := takeBytes_eq_some_iff.1 htake
    obtain ⟨rfl, rfl⟩ := Prod.mk.inj heq
    exact ⟨le_lt xs, by rw [toLe_le]⟩
  · rintro ⟨hv, rfl⟩
    exact takeInt_toLe_append hv rest

theorem takeInts_eq_some_iff {n count : Nat} {vs : List Nat} {bs rest : List Byte} :
    takeInts n count bs = some (vs, rest) ↔
      vs.length = count ∧ (∀ v ∈ vs, v < 2 ^ (8 * n)) ∧ bs = vs.flatMap (fun v => toLe v n) ++ rest := by
  induction count generalizing vs bs with
  | zero =>
    constructor
    · intro h
      obtain ⟨rfl, rfl⟩ : [] = vs ∧ bs = rest := by simpa [takeInts] using h
      simp
    · rintro ⟨hlen, -, rfl⟩
      simp [takeInts, List.eq_nil_of_length_eq_zero hlen]
  | succ count ih =>
    constructor
    · intro h
      obtain ⟨⟨v, bs'⟩, hv, h⟩ := Option.bind_eq_some_iff.1 h
      obtain ⟨⟨ws, rest'⟩, hws, heq⟩ := Option.map_eq_some_iff.1 h
      obtain ⟨rfl, rfl⟩ := Prod.mk.inj heq
      obtain ⟨hfit, rfl⟩ := takeInt_eq_some_iff.1 hv
      obtain ⟨rfl, hfits, rfl⟩ := ih.1 hws
      exact ⟨rfl, List.forall_mem_cons.2 ⟨hfit, hfits⟩, by simp⟩
    · rintro ⟨hlen, hfits, rfl⟩
      obtain ⟨v, ws, rfl⟩ := List.exists_cons_of_length_eq_add_one hlen
      obtain ⟨hfit, hfits⟩ := List.forall_mem_cons.1 hfits
      have hv : takeInt n ((v :: ws).flatMap (fun v => toLe v n) ++ rest) =
          some (v, ws.flatMap (fun v => toLe v n) ++ rest) :=
        takeInt_eq_some_iff.2 ⟨hfit, by simp⟩
      have hws := ih.2 ⟨Nat.succ.inj hlen, hfits, rfl⟩
      rw [takeInts, hv, Option.bind_some, hws, Option.map_some]

/-- The command word of R78. -/
def Command.word : Command → Byte
  | .bcNew => 0x01#8
  | .bcGen => 0x02#8
  | .cfDef => 0x10#8
  | .cfFromb => 0x11#8
  | .cfTob => 0x12#8
  | .cfInc => 0x13#8
  | .cfCadd => 0x14#8
  | .cfEnc => 0x15#8
  | .cfDec => 0x16#8

theorem commandOf_word (c : Command) : commandOf c.word = some c := by
  cases c <;> rfl

/-- The unit and the function together are the whole command word, so no two words name one command. -/
theorem commandOf_eq_some_iff {cmd : Byte} {c : Command} : commandOf cmd = some c ↔ cmd = c.word := by
  constructor
  · intro h
    have hsplit : cmd.toNat = 16 * cmdUnit cmd + cmdFn cmd := (Nat.div_add_mod cmd.toNat 16).symm
    apply BitVec.eq_of_toNat_eq
    unfold commandOf at h
    split at h <;> cases h <;> simp_all [Command.word]
  · rintro rfl
    exact commandOf_word c

theorem exists_word_iff {cmd : Byte} :
    (∃ c : Command, cmd = c.word) ↔
      cmd.toNat ∈ [0x01, 0x02, 0x10, 0x11, 0x12, 0x13, 0x14, 0x15, 0x16] := by
  constructor
  · rintro ⟨c, rfl⟩
    cases c <;> decide
  · intro h
    simp only [List.mem_cons, List.not_mem_nil, or_false] at h
    rcases h with h | h | h | h | h | h | h | h | h
    · exact ⟨.bcNew, BitVec.eq_of_toNat_eq h⟩
    · exact ⟨.bcGen, BitVec.eq_of_toNat_eq h⟩
    · exact ⟨.cfDef, BitVec.eq_of_toNat_eq h⟩
    · exact ⟨.cfFromb, BitVec.eq_of_toNat_eq h⟩
    · exact ⟨.cfTob, BitVec.eq_of_toNat_eq h⟩
    · exact ⟨.cfInc, BitVec.eq_of_toNat_eq h⟩
    · exact ⟨.cfCadd, BitVec.eq_of_toNat_eq h⟩
    · exact ⟨.cfEnc, BitVec.eq_of_toNat_eq h⟩
    · exact ⟨.cfDec, BitVec.eq_of_toNat_eq h⟩

/-- The other 247 command words name no command (R83). -/
theorem commandOf_eq_none_iff {cmd : Byte} :
    commandOf cmd = none ↔ cmd.toNat ∉ [0x01, 0x02, 0x10, 0x11, 0x12, 0x13, 0x14, 0x15, 0x16] := by
  rw [← exists_word_iff, Option.eq_none_iff_forall_ne_some, not_exists]
  exact forall_congr' fun c => not_congr commandOf_eq_some_iff

theorem decode_illegalCommand_iff {cmd : Byte} {record : List Byte} :
    decode p (.c8 (cmd :: record)) = .error .illegalCommand ↔ commandOf cmd = none := by
  cases hc : commandOf cmd with
  | none => simp [decode, decodePacket, hc]
  | some c =>
    simp only [decode, decodePacket, hc, reduceCtorEq, iff_false]
    split
    · split <;> simp
    · simp

/-- A command word and then exactly its record is a packet (R80). -/
theorem decode_word_record {c : Command} {i : Instr} {record : List Byte}
    (hrec : takeRecord p c record = some (i, [])) (hwf : i.wellFormed p = true) :
    decode p (.c8 (c.word :: record)) = .instr i := by
  simp [decode, decodePacket, commandOf_word, hrec, hwf]

/-- A value of `RW` bits fits in its `ceil(RW/8)` bytes. -/
theorem Params.two_pow_RW_le (p : Params) : 2 ^ p.RW ≤ 2 ^ (8 * p.rhsBytes) := by
  apply Nat.pow_le_pow_right (by decide)
  unfold Params.rhsBytes
  omega

theorem takeRecord_bcNew {key iv : List Byte} {rounds : BitVec 8} (hkey : key.length < 2 ^ 16)
    (hiv : iv.length < 2 ^ 16) :
    takeRecord p .bcNew (toLe key.length 2 ++ key ++ toLe iv.length 2 ++ iv ++ toLe rounds.toNat 1) =
      some (.bcNew key iv rounds, []) := by
  have hrounds : takeInt 1 (toLe rounds.toNat 1) = some (rounds.toNat, []) :=
    takeInt_eq_some_iff.2 ⟨rounds.isLt, (List.append_nil _).symm⟩
  have hivBytes (rest : List Byte) : takeBytes iv.length (iv ++ rest) = some (iv, rest) :=
    takeBytes_eq_some_iff.2 ⟨rfl, rfl⟩
  have hkeyBytes (rest : List Byte) : takeBytes key.length (key ++ rest) = some (key, rest) :=
    takeBytes_eq_some_iff.2 ⟨rfl, rfl⟩
  simp only [List.append_assoc, takeRecord, takeInt_toLe_append (n := 2) hkey, takeInt_toLe_append (n := 2) hiv,
    hkeyBytes, hivBytes, hrounds, Option.bind_some, Option.map_some, BitVec.ofNat_toNat, BitVec.setWidth_eq]

theorem takeRecord_cfDec {block : List Byte} (hblock : block.length < 2 ^ 16) :
    takeRecord p .cfDec (toLe block.length 2 ++ block) = some (.cfDec block, []) := by
  have hbytes : takeBytes block.length block = some (block, []) :=
    takeBytes_eq_some_iff.2 ⟨rfl, (List.append_nil _).symm⟩
  rw [takeRecord, takeInt_toLe_append (n := 2) hblock, Option.bind_some, hbytes, Option.map_some]

/-- Settles O42: each record is read back field by field, the field widths being those of a well-formed
instruction. -/
theorem decodeOfEncode : Obligations.DecodeOfEncode := by
  intro p i hwf
  cases i with
  | bcNew key iv rounds =>
    obtain ⟨hkey, hiv⟩ : key.length < 2 ^ 16 ∧ iv.length < 2 ^ 16 := by simpa [Instr.wellFormed] using hwf
    exact decode_word_record (c := .bcNew) (takeRecord_bcNew hkey hiv) hwf
  | bcGen counter outLen => exact decode_of_encode_bcGen (q := p) rfl
  | cfFromb v =>
    have hv : v < 2 ^ (8 * p.K) := by simpa [Instr.wellFormed, p.modulus_eq] using hwf
    have hint := takeInt_eq_some_iff.2 ⟨hv, (List.append_nil _).symm⟩
    exact decode_word_record (c := .cfFromb) (by rw [takeRecord, hint, Option.map_some]) hwf
  | cfCadd rhs =>
    have hrhs : rhs < 2 ^ p.RW := by simpa [Instr.wellFormed] using hwf
    have hint := takeInt_eq_some_iff.2 ⟨hrhs.trans_le p.two_pow_RW_le, (List.append_nil _).symm⟩
    exact decode_word_record (c := .cfCadd) (by rw [takeRecord, hint, Option.map_some]) hwf
  | cfEnc lanes =>
    obtain ⟨hlen, hfits⟩ : lanes.length = p.N ∧ ∀ v ∈ lanes, v < 2 ^ (8 * p.K) := by
      simpa [Instr.wellFormed, p.modulus_eq] using hwf
    have hints := takeInts_eq_some_iff.2 ⟨hlen, hfits, (List.append_nil _).symm⟩
    exact decode_word_record (c := .cfEnc) (by rw [takeRecord, hints, Option.map_some]) hwf
  | cfDec block =>
    have hblock : block.length < 2 ^ 16 := by simpa [Instr.wellFormed] using hwf
    exact decode_word_record (c := .cfDec) (takeRecord_cfDec hblock) hwf
  | cfDef => exact decode_word_record (c := .cfDef) rfl hwf
  | cfTob => exact decode_word_record (c := .cfTob) rfl hwf
  | cfInc => exact decode_word_record (c := .cfInc) rfl hwf
  | uLoad | uCol | uDiag | uFfwd | uSer => rfl

/-- Whatever a record is read as, its encoding is the command word and the bytes read. -/
theorem encode_of_takeRecord {c : Command} {i : Instr} {bs : List Byte}
    (h : takeRecord p c bs = some (i, [])) : encode p i = .c8 (c.word :: bs) := by
  cases c <;>
    simp only [takeRecord, Option.bind_eq_some_iff, Option.map_eq_some_iff, Option.some.injEq, Prod.exists,
      Prod.mk.injEq, takeInt_eq_some_iff, takeBytes_eq_some_iff, takeInts_eq_some_iff] at h
  case bcNew =>
    obtain ⟨_, _, ⟨-, rfl⟩, key, _, ⟨rfl, rfl⟩, _, _, ⟨-, rfl⟩, iv, _, ⟨rfl, rfl⟩, r, _, ⟨-, rfl⟩, rfl, rfl⟩ := h
    have hr : toLe (BitVec.ofNat 8 r).toNat 1 = toLe r 1 := toLe_mod r 1
    rw [encode, hr]
    simp [Command.word]
  case bcGen =>
    obtain ⟨counter, _, ⟨-, rfl⟩, outLen, _, ⟨-, rfl⟩, rfl, rfl⟩ := h
    have hcounter : toLe (BitVec.ofNat 64 counter).toNat 8 = toLe counter 8 := toLe_mod counter 8
    have houtLen : toLe (BitVec.ofNat 16 outLen).toNat 2 = toLe outLen 2 := toLe_mod outLen 2
    rw [encode, hcounter, houtLen]
    simp [Command.word]
  case cfFromb =>
    obtain ⟨v, _, ⟨-, rfl⟩, rfl, rfl⟩ := h
    simp [encode, Command.word]
  case cfCadd =>
    obtain ⟨rhs, _, ⟨-, rfl⟩, rfl, rfl⟩ := h
    simp [encode, Command.word]
  case cfEnc =>
    obtain ⟨lanes, _, ⟨-, -, rfl⟩, rfl, rfl⟩ := h
    simp [encode, Command.word]
  case cfDec =>
    obtain ⟨_, _, ⟨-, rfl⟩, block, _, ⟨rfl, rfl⟩, rfl, rfl⟩ := h
    simp [encode, Command.word]
  case cfDef | cfTob | cfInc =>
    obtain ⟨rfl, rfl⟩ := h
    rfl

/-- A phase code that selects a micro-step is that micro-step's encoding (R85). -/
theorem encode_of_decodeMicroStep {code : BitVec 3} {i : Instr} (h : decodeMicroStep code = .instr i) :
    i.wellFormed p = true ∧ encode p i = .u3 code := by
  unfold decodeMicroStep at h
  split at h <;> cases h <;>
    exact ⟨rfl, congrArg CodeWord.u3 (BitVec.eq_of_toNat_eq (Eq.symm ‹code.toNat = _›))⟩

/-- Settles O43: a packet is its command word and record, each of which determines what it was read from. -/
theorem encodeOfDecode : Obligations.EncodeOfDecode := by
  intro p w i h
  cases w with
  | u3 code => exact encode_of_decodeMicroStep h
  | c8 packet =>
    obtain ⟨cmd, record, c, rfl, hcmd, hrec, hwf⟩ := decodePacket_instr h
    rw [commandOf_eq_some_iff.1 hcmd]
    exact ⟨hwf, encode_of_takeRecord hrec⟩

/-- Settles O44: only a command word outside the table of R78 is rejected as unassigned. -/
theorem nineCommandWordsAssigned : Obligations.NineCommandWordsAssigned := fun _ _ _ =>
  decode_illegalCommand_iff.trans commandOf_eq_none_iff

/-- Settles O45, by running the decoder on the written words. -/
theorem writtenWordsDecode : Obligations.WrittenWordsDecode := by
  unfold Obligations.WrittenWordsDecode
  decide

end Sys2Proof
end

section
/-! The quarter-round undone (R136, R137), and the groups of a round (R141): no word is in two groups of one table,
so each quarter-round of a round reads what it would read alone, and any two of them commute. -/

namespace Sys2Proof.Machine

theorem rotl_getElem (x : Word) {n i : Nat} (hn : n < 32) (hi : i < 32) :
    (rotl x n)[i] = if h : i < n then x[32 - n + i] else x[i - n] := by
  simp only [rotl_eq_rotateLeft x hn, BitVec.getElem_rotateLeft, Nat.mod_eq_of_lt hn]

/-- Rotations that together go all the way round. -/
theorem rotl_rotl_cancel (x : Word) {m n : Nat} (hm : m < 32) (hn : n < 32) (hsum : n + m = 32) :
    rotl (rotl x n) m = x := by
  ext i hi
  rw [rotl_getElem _ hm hi]
  split
  · rw [rotl_getElem _ hn, dif_neg (by omega)]
    congr 1
    omega
  · rw [rotl_getElem _ hn, dif_pos (by omega)]
    congr 1
    omega

theorem rotr_rotl (x : Word) {n : Nat} (hpos : 0 < n) (hn : n < 32) : rotr (rotl x n) n = x :=
  rotl_rotl_cancel x (by omega) hn (by omega)

theorem rotl_rotr (x : Word) {n : Nat} (hpos : 0 < n) (hn : n < 32) : rotl (rotr x n) n = x :=
  rotl_rotl_cancel x hn (by omega) (by omega)

theorem qs1_inverse (q : Quad) : qs1Inv (qs1 q) = q ∧ qs1 (qs1Inv q) = q := by
  simp [qs1Inv, qs1, add32, rotr_rotl, rotl_rotr]

theorem qs2_inverse (q : Quad) : qs2Inv (qs2 q) = q ∧ qs2 (qs2Inv q) = q := by
  simp [qs2Inv, qs2, add32, rotr_rotl, rotl_rotr]

theorem qs3_inverse (q : Quad) : qs3Inv (qs3 q) = q ∧ qs3 (qs3Inv q) = q := by
  simp [qs3Inv, qs3, add32, rotr_rotl, rotl_rotr]

theorem qs4_inverse (q : Quad) : qs4Inv (qs4 q) = q ∧ qs4 (qs4Inv q) = q := by
  simp [qs4Inv, qs4, add32, rotr_rotl, rotl_rotr]

theorem quarterRound_eq_stages (q : Quad) : quarterRound q = qs4 (qs3 (qs2 (qs1 q))) := rfl

/-- Settles O13: the inverse stages cancel the stages from the last to the first. -/
theorem quarterRoundIsBijective : Obligations.QuarterRoundIsBijective := by
  intro q
  refine ⟨quarterRound_eq_stages q, ?_, ?_⟩
  · rw [quarterRound_eq_stages, quarterRoundInv, (qs4_inverse _).1, (qs3_inverse _).1,
      (qs2_inverse _).1, (qs1_inverse _).1]
  · rw [quarterRound_eq_stages, quarterRoundInv, (qs1_inverse _).2, (qs2_inverse _).2,
      (qs3_inverse _).2, (qs4_inverse _).2]

/-- The word indices of a group. -/
def Group.indices (g : Group) : List (Fin 16) := [g.a, g.b, g.c, g.d]

/-- Two groups have no word in common. -/
abbrev Group.Apart (g h : Group) : Prop := ∀ i ∈ g.indices, i ∉ h.indices

theorem Group.Apart.symm {g h : Group} (hgh : g.Apart h) : h.Apart g :=
  fun i hi hi' => hgh i hi' hi

theorem colTable_apart : colTable.Pairwise Group.Apart := by decide

theorem diagTable_apart : diagTable.Pairwise Group.Apart := by decide

theorem writeGroup_getElem_of_notMem (x : RegFile) (g : Group) (q : Quad) {i : Fin 16} (hi : i ∉ g.indices) :
    (writeGroup x g q)[i] = x[i] := by
  simp only [Group.indices, List.mem_cons, List.not_mem_nil, or_false, not_or] at hi
  obtain ⟨ha, hb, hc, hd⟩ := hi
  exact writeGroup_getElem_of_ne x g q ha hb hc hd

theorem writeGroup_set (x : RegFile) {g : Group} (q : Quad) {i : Fin 16} (v : Word) (hi : i ∉ g.indices) :
    writeGroup (x.set i v) g q = (writeGroup x g q).set i v := by
  simp only [Group.indices, List.mem_cons, List.not_mem_nil, or_false, not_or, Fin.ext_iff] at hi
  obtain ⟨ha, hb, hc, hd⟩ := hi
  simp only [writeGroup]
  rw [Vector.set_comm _ _ ha, Vector.set_comm _ _ hb, Vector.set_comm _ _ hc, Vector.set_comm _ _ hd]

variable {g h : Group}

theorem readGroup_mixGroup (x : RegFile) (hg : g.Distinct) :
    readGroup (mixGroup x g) g = quarterRound (readGroup x g) :=
  readGroup_writeGroup x hg _

theorem readGroup_writeGroup_of_apart (x : RegFile) (q : Quad) (hgh : g.Apart h) :
    readGroup (writeGroup x h q) g = readGroup x g := by
  have hread (i : Fin 16) (hi : i ∈ g.indices) : (writeGroup x h q)[i] = x[i] :=
    writeGroup_getElem_of_notMem x h q (hgh i hi)
  simp only [Group.indices, List.forall_mem_cons] at hread
  obtain ⟨ha, hb, hc, hd, -⟩ := hread
  simp only [readGroup, ha, hb, hc, hd]

theorem writeGroup_comm (x : RegFile) (q r : Quad) (hgh : g.Apart h) :
    writeGroup (writeGroup x g q) h r = writeGroup (writeGroup x h r) g q := by
  simp only [Group.Apart, Group.indices, List.forall_mem_cons] at hgh
  obtain ⟨ha, hb, hc, hd, -⟩ := hgh
  rw [writeGroup.eq_1 x g, writeGroup_set _ _ _ hd, writeGroup_set _ _ _ hc, writeGroup_set _ _ _ hb,
    writeGroup_set _ _ _ ha, ← writeGroup]

theorem mixGroup_comm (x : RegFile) (hgh : g.Apart h) :
    mixGroup (mixGroup x g) h = mixGroup (mixGroup x h) g := by
  simp only [mixGroup, readGroup_writeGroup_of_apart x _ hgh, readGroup_writeGroup_of_apart x _ hgh.symm,
    writeGroup_comm x _ _ hgh]

/-- Groups with no word in common may be mixed in any order. -/
theorem foldl_mixGroup_perm {l l' : List Group} (hperm : l.Perm l') (hl' : l'.Pairwise Group.Apart)
    (x : RegFile) : l.foldl mixGroup x = tableRound x l' := by
  have : Std.Symm Group.Apart := ⟨fun _ _ => Group.Apart.symm⟩
  refine (hperm.symm.foldl_eq' (fun g hg h hh z => ?_) x).symm
  by_cases hgh : g = h
  · rw [hgh]
  · exact mixGroup_comm z (hl'.forall hg hh hgh)

/-- Settles O14: any order of a table's groups gives the round of the table. -/
theorem quarterRoundOrderIsImmaterial : Obligations.QuarterRoundOrderIsImmaterial := by
  intro x l
  constructor
  · intro hperm
    rw [foldl_mixGroup_perm hperm colTable_apart, tableRound_colTable]
  · intro hperm
    rw [foldl_mixGroup_perm hperm diagTable_apart, tableRound_diagTable]

theorem readGroup_tableRound_of_apart (x : RegFile) {table : List Group} (hg : ∀ h ∈ table, g.Apart h) :
    readGroup (tableRound x table) g = readGroup x g := by
  induction table generalizing x with
  | nil => rfl
  | cons k table ih =>
    obtain ⟨hk, hrest⟩ := List.forall_mem_cons.1 hg
    exact (ih (mixGroup x k) hrest).trans (readGroup_writeGroup_of_apart x _ hk)

/-- In a round each group gets the quarter-round of what it held before the round. -/
theorem readGroup_tableRound (x : RegFile) {table : List Group} (hmem : g ∈ table) (hg : g.Distinct)
    (hapart : table.Pairwise Group.Apart) :
    readGroup (tableRound x table) g = quarterRound (readGroup x g) := by
  induction table generalizing x with
  | nil => cases hmem
  | cons k table ih =>
    obtain ⟨hk, hrest⟩ := List.pairwise_cons.1 hapart
    obtain rfl | hmem := List.mem_cons.1 hmem
    · exact (readGroup_tableRound_of_apart (mixGroup x g) hk).trans (readGroup_mixGroup x hg)
    · have hbefore : readGroup (mixGroup x k) g = readGroup x g :=
        readGroup_writeGroup_of_apart x _ (hk g hmem).symm
      exact (ih (mixGroup x k) hmem hrest).trans (congrArg quarterRound hbefore)

/-- Settles O8: the column round is the round of the column table. -/
theorem uColMixesColumns : Obligations.UColMixesColumns := by
  intro s
  refine ⟨rfl, _, rfl, rfl, fun g hg => ?_⟩
  have hdistinct := g.distinct_of_mem_tables (List.mem_append_left _ hg)
  simpa only [tableRound_colTable] using readGroup_tableRound s.X hg hdistinct colTable_apart

/-- Settles O9: the diagonal round is the round of the diagonal table, and the phase is the loop test of R113. -/
theorem uDiagMixesDiagonals : Obligations.UDiagMixesDiagonals := by
  intro s
  refine ⟨rfl, _, rfl, rfl, fun g hg => ?_⟩
  have hdistinct := g.distinct_of_mem_tables (List.mem_append_right _ hg)
  simpa only [tableRound_diagTable] using readGroup_tableRound s.X hg hdistinct diagTable_apart

end Sys2Proof.Machine
end

section
/-! CF.DEC and back (43_ctr_block_codec.md R185, R188): a lane encoded from its own decoded bytes is those bytes,
and with `CTR = 0` the counter lane too. -/

namespace Sys2Proof.Machine

variable {p : Params} {block : List Byte} {j : Nat}

/-- Settles O25: lane `j` is the decoded chunk `j`, in the lane's order. -/
theorem cfDecSplitsBlock : Obligations.CfDecSplitsBlock := by
  intro s block hready hlen
  refine ⟨decodeBlock s.cfg block, exec_cfDec_ready hready hlen, decodeBlock_length _ _, fun j hj => ?_⟩
  have hlane := decodeBlock_getElem? block hj
  constructor
  · rintro (rfl : j = s.cfg.P)
    rwa [Params.laneOrder_P] at hlane
  · intro hne
    rwa [Params.laneOrder_of_ne hne] at hlane

/-- A counter of zero adds nothing to the counter lane. -/
theorem encodeLane_zero {v : Nat} (hv : v < p.modulus) :
    encodeLane p 0 j v = encBytes (p.laneOrder j) v p.K := by
  rw [encodeLane, addW, Nat.zero_add, Nat.mod_eq_of_lt hv, ite_self]

theorem laneChunk_length (hlen : block.length = p.B) (hj : j < p.N) : (laneChunk p block j).length = p.K := by
  have hend : p.K * (j + 1) ≤ p.N * p.K := by
    rw [Nat.mul_comm]
    exact Nat.mul_le_mul_right p.K hj
  exact bufRead_length _ _ _ (by rw [hlen, Params.B]; exact hend)

theorem encodeLane_decBytes_laneChunk (hlen : block.length = p.B) (hj : j < p.N) :
    encodeLane p 0 j (decBytes (p.laneOrder j) (laneChunk p block j)) = laneChunk p block j := by
  have hchunk := laneChunk_length hlen hj
  have hfits := decBytes_lt (p.laneOrder j) (laneChunk p block j)
  have hback := encBytes_decBytes (p.laneOrder j) (laneChunk p block j)
  rw [hchunk] at hfits hback
  rw [encodeLane_zero (p.modulus_eq ▸ hfits), hback]

/-- R188, byte by byte: byte `i` is byte `i mod K` of lane `i / K`. -/
theorem encodeBlock_decodeBlock (hlen : block.length = p.B) :
    encodeBlock p 0 (decodeBlock p block) = block := by
  have hlength : (encodeBlock p 0 (decodeBlock p block)).length = block.length := by
    rw [encodeBlock_length, decodeBlock_length, hlen, Params.B]
  apply List.ext_getElem?
  intro i
  by_cases hi : i < p.N * p.K
  · have hj : i / p.K < p.N := Nat.div_lt_of_lt_mul (by rwa [Nat.mul_comm])
    have hk : i % p.K < p.K := Nat.mod_lt _ p.K_pos
    rw [← Nat.div_add_mod i p.K, encodeBlock_getElem? (decodeBlock_getElem? block hj) hk,
      encodeLane_decBytes_laneChunk hlen hj, laneChunk_getElem? p block _ hk]
  · have hout : block.length ≤ i := by
      rw [hlen]
      exact not_lt.1 hi
    rw [List.getElem?_eq_none hout, List.getElem?_eq_none (hlength.le.trans hout)]

/-- Settles O28: CF.DEC leaves `CTR = 0` as it is, so CF.ENC puts the lanes back where they came from. -/
theorem decodeThenEncodeRestoresBlock : Obligations.DecodeThenEncodeRestoresBlock := by
  intro s block hready hctr hlen
  have henc := exec_cfEnc_ready (s := s.respond (.ok (.lanes (decodeBlock s.cfg block)))) hready
    (decodeBlock_length s.cfg block)
  refine ⟨_, decodeBlock s.cfg block, _, exec_cfDec_ready hready hlen, rfl, henc, ?_⟩
  rw [State.blockEncoded, State.respond_responses]
  simp only [State.respond_cfg, State.respond_CTR, hctr, encodeBlock_decodeBlock hlen]

/-- Settles O24: the lane count is tested before anything is encoded. -/
theorem cfEncLaneCountStops : Obligations.CfEncLaneCountStops := by
  intro s lanes hready hlen
  simp only [exec, execCfEnc, issue_of_ready hready, if_neg hlen]

end Sys2Proof.Machine
end

section
/-! What an instruction that answers can have done, said once for all instructions: `Effect`. What is written and
what is answered (10_state.md R33, 30_encoding.md R84) is read off its cases. -/

namespace Sys2Proof.Machine

/-- `s` with the words of a key and IV loaded and the response returned (R100). -/
def State.keyLoaded (s : State) (key iv : List Byte) (r : BitVec 8) : State :=
  ({ s with S := keySchedule key iv, ROUNDS := r, KEYED := true } : State).respond (.ok .none)

/-- `s` with a BC.GEN accepted: the counter latched, the scheduler started (R110). -/
def State.genStarted (s : State) (counter : BitVec 64) : State := { s with CNT := counter, PH := .load }

/-- How an instruction can take state `s` to a next state. -/
inductive Effect (s : State) : Instr → State → Prop
  | turnedAway {i : Instr} (hi : i.isCommand = true) (hidle : s.PH = .idle) (herr : s.ERR = true) :
      Effect s i s.turnedAway
  | violation {i : Instr} (v : Violation) (hready : s.ready)
      (hi : (∃ key iv r, i = .bcNew key iv r) ∨ (∃ c n, i = .bcGen c n) ∨ ∃ b, i = .cfDec b) :
      Effect s i (s.violate v)
  | keyLoaded {key iv r} (hready : s.ready) (hrounds : r = 8#8 ∨ r = 12#8 ∨ r = 20#8) :
      Effect s (.bcNew key iv r) (s.keyLoaded key iv r)
  | genStarted {counter} (hready : s.ready) (hkeyed : s.KEYED = true) :
      Effect s (.bcGen counter 64#16) (s.genStarted counter)
  | counterWritten {i : Instr} (v : Nat) (payload : Payload) (hready : s.ready)
      (hi : i = .cfDef ∨ (∃ v, i = .cfFromb v) ∨ i = .cfInc) :
      Effect s i ((s.writeCtr v).respond (.ok payload))
  | answered {i : Instr} (r : Response) (hready : s.ready) (hr : r = .noValue → ∃ rhs, i = .cfCadd rhs) :
      Effect s i (s.respond r)
  | blockEncoded {lanes} (hready : s.ready) (hlen : lanes.length = s.cfg.N) :
      Effect s (.cfEnc lanes) (s.blockEncoded lanes)
  | loaded : Effect s .uLoad { s with X := s.X0, DR := 0#4, PH := .col }
  | columnsMixed : Effect s .uCol { s with X := colRound s.X, PH := .diag }
  | diagonalsMixed : Effect s .uDiag { s with
      X := diagRound s.X, DR := s.DR + 1#4, PH := afterDiag (s.DR + 1#4) s.ROUNDS }
  | fedForward : Effect s .uFfwd { s with X := feedForward s.X s.X0, PH := .ser }
  | serialized : Effect s .uSer (({ s with
      OUT := s.OUT.writeBytes 0 (serialize s.X), DR := 0#4, PH := .idle } : State).respond
        (.ok (.bytes (serialize s.X))))

variable {i : Instr} {s t : State}

/-- Every next state of an instruction is one of the effects. -/
theorem exec_effect (h : exec i s = .next t) : Effect s i t := by
  cases i with
  | bcNew key iv r =>
    obtain ⟨hidle, ⟨herr, rfl⟩ | ⟨hnoErr, h⟩⟩ := execBcNew_next h
    · exact .turnedAway rfl hidle herr
    · have hraise (v) : Effect s (.bcNew key iv r) (s.violate v) :=
        .violation v ⟨hidle, hnoErr⟩ (.inl ⟨_, _, _, rfl⟩)
      obtain ⟨-, rfl⟩ | ⟨-, -, rfl⟩ | ⟨-, -, -, rfl⟩ | ⟨-, -, hrounds, rfl⟩ := h
      · exact hraise _
      · exact hraise _
      · exact hraise _
      · exact .keyLoaded ⟨hidle, hnoErr⟩ (legalRounds_iff.1 hrounds)
  | bcGen counter outLen =>
    obtain ⟨hidle, ⟨herr, rfl⟩ | ⟨hnoErr, h⟩⟩ := execBcGen_next h
    · exact .turnedAway rfl hidle herr
    · have hraise (v) : Effect s (.bcGen counter outLen) (s.violate v) :=
        .violation v ⟨hidle, hnoErr⟩ (.inr (.inl ⟨_, _, rfl⟩))
      obtain ⟨-, rfl⟩ | ⟨-, -, rfl⟩ | ⟨hkeyed, rfl, rfl⟩ := h
      · exact hraise _
      · exact hraise _
      · exact .genStarted ⟨hidle, hnoErr⟩ hkeyed
  | cfDef =>
    obtain ⟨hidle, ⟨herr, rfl⟩ | ⟨hnoErr, rfl⟩⟩ := execCfDef_next h
    · exact .turnedAway rfl hidle herr
    · exact .counterWritten _ _ ⟨hidle, hnoErr⟩ (.inl rfl)
  | cfFromb v =>
    obtain ⟨hidle, ⟨herr, rfl⟩ | ⟨hnoErr, rfl⟩⟩ := execCfFromb_next h
    · exact .turnedAway rfl hidle herr
    · exact .counterWritten _ _ ⟨hidle, hnoErr⟩ (.inr (.inl ⟨v, rfl⟩))
  | cfTob =>
    obtain ⟨hidle, ⟨herr, rfl⟩ | ⟨hnoErr, rfl⟩⟩ := execCfTob_next h
    · exact .turnedAway rfl hidle herr
    · exact .answered _ ⟨hidle, hnoErr⟩ nofun
  | cfInc =>
    obtain ⟨hidle, ⟨herr, rfl⟩ | ⟨hnoErr, rfl⟩⟩ := execCfInc_next h
    · exact .turnedAway rfl hidle herr
    · exact .counterWritten _ _ ⟨hidle, hnoErr⟩ (.inr (.inr rfl))
  | cfCadd rhs =>
    obtain ⟨hidle, ⟨herr, rfl⟩ | ⟨hnoErr, r, rfl, -⟩⟩ := execCfCadd_next h
    · exact .turnedAway rfl hidle herr
    · exact .answered _ ⟨hidle, hnoErr⟩ fun _ => ⟨rhs, rfl⟩
  | cfEnc lanes =>
    obtain ⟨hidle, ⟨herr, rfl⟩ | ⟨hnoErr, hlen, rfl⟩⟩ := execCfEnc_next h
    · exact .turnedAway rfl hidle herr
    · exact .blockEncoded ⟨hidle, hnoErr⟩ hlen
  | cfDec block =>
    obtain ⟨hidle, ⟨herr, rfl⟩ | ⟨hnoErr, ⟨-, rfl⟩ | ⟨-, rfl⟩⟩⟩ := execCfDec_next h
    · exact .turnedAway rfl hidle herr
    · exact .violation _ ⟨hidle, hnoErr⟩ (.inr (.inr ⟨block, rfl⟩))
    · exact .answered _ ⟨hidle, hnoErr⟩ nofun
  | uLoad => cases h; exact .loaded
  | uCol => cases h; exact .columnsMixed
  | uDiag => cases h; exact .diagonalsMixed
  | uFfwd => cases h; exact .fedForward
  | uSer => cases h; exact .serialized

/-- Settles O47: of each register, the effects that change it are those of the instructions named. -/
theorem accessSummary : Obligations.AccessSummary := by
  intro i s t h
  cases exec_effect h with
  | turnedAway => simp [State.turnedAway]
  | violation v hready hi => simp [hi]
  | keyLoaded => simp [State.keyLoaded]
  | genStarted => simp [State.genStarted]
  | counterWritten v payload hready hi => simp [hi]
  | answered => simp
  | blockEncoded => simp [State.blockEncoded]
  | loaded | columnsMixed | diagonalsMixed | fedForward | serialized => simp [Instr.isCommand]

theorem afterDiag_ne_idle (dr : BitVec 4) (rounds : BitVec 8) : afterDiag dr rounds ≠ .idle := by
  unfold afterDiag
  split <;> decide

/-- Settles O48: every effect but BC.GEN's start and the micro-steps before U.SER appends one response and leaves
the scheduler idle. -/
theorem oneResponsePerCommand : Obligations.OneResponsePerCommand := by
  intro i s t h
  cases exec_effect h with
  | turnedAway hi hidle => simp [State.turnedAway, hidle]
  | violation v hready => simp [hready.1]
  | keyLoaded hready => simp [State.keyLoaded, hready.1]
  | genStarted => simp [State.genStarted]
  | counterWritten v payload hready => simp [hready.1]
  | answered r hready hr => simpa [hready.1] using hr
  | blockEncoded hready => simp [State.blockEncoded, hready.1]
  | diagonalsMixed => simp [afterDiag_ne_idle]
  | loaded | columnsMixed | fedForward | serialized => simp

end Sys2Proof.Machine
end

section
/-! The two units do not meet (10_state.md R36, R190): issuing commutes with replacing the registers of the other
unit, so only each command's own work is left to compare. -/

namespace Sys2Proof.Machine

/-- Issuing commutes with a change of state that both tests and the work commute with. -/
theorem issue_mapNext {f : State → State} {work : State → Result} {s : State} (hph : (f s).PH = s.PH)
    (herr : (f s).ERR = s.ERR) (hrefuse : refuseCommand (f s) = Result.mapNext f (refuseCommand s))
    (hwork : work (f s) = Result.mapNext f (work s)) :
    issue (f s) work = Result.mapNext f (issue s work) := by
  unfold issue
  rw [hph, herr, hrefuse, hwork]
  cases s.PH <;> simp only [apply_ite (Result.mapNext f)] <;> rfl

theorem issue_withBlockCoreOf {work : State → Result} (s u : State)
    (hwork : work (s.withBlockCoreOf u) = Result.mapNext (·.withBlockCoreOf u) (work s)) :
    issue (s.withBlockCoreOf u) work = Result.mapNext (·.withBlockCoreOf u) (issue s work) :=
  issue_mapNext (f := (·.withBlockCoreOf u)) rfl rfl rfl hwork

theorem issue_withCounterOf {work : State → Result} (s u : State)
    (hwork : work (s.withCounterOf u) = Result.mapNext (·.withCounterOf u) (work s)) :
    issue (s.withCounterOf u) work = Result.mapNext (·.withCounterOf u) (issue s work) :=
  issue_mapNext (f := (·.withCounterOf u)) rfl rfl rfl hwork

/-- Settles O49: the tests and results of a CounterFlavor command are of `CTR`, `BLKO` and the configuration. -/
theorem counterFlavorIgnoresBlockCore : Obligations.CounterFlavorIgnoresBlockCore := by
  intro i s u hi
  cases i with
  | cfDef | cfFromb | cfTob | cfInc =>
    simp only [exec, execCfDef, execCfFromb, execCfTob, execCfInc]
    exact issue_withBlockCoreOf s u rfl
  | cfCadd | cfEnc | cfDec =>
    simp only [exec, execCfCadd, execCfEnc, execCfDec]
    apply issue_withBlockCoreOf s u
    simp only [apply_ite (Result.mapNext _)]
    rfl
  | bcNew | bcGen | uLoad | uCol | uDiag | uFfwd | uSer => cases hi

/-- Settles O50: the tests and results of a BlockCore command or micro-step are of BlockCore's registers. -/
theorem blockCoreIgnoresCounterFlavor : Obligations.BlockCoreIgnoresCounterFlavor := by
  intro i s u hi
  cases i with
  | uLoad | uCol | uDiag | uFfwd | uSer => rfl
  | bcNew | bcGen =>
    simp only [exec, execBcNew, execBcGen]
    apply issue_withCounterOf s u
    simp only [apply_ite (Result.mapNext _)]
    rfl
  | cfDef | cfFromb | cfTob | cfInc | cfCadd | cfEnc | cfDec => cases hi

end Sys2Proof.Machine
end

section
/-! BlockCore's commands when ready (R100, R101), and what a step is (20_memory.md R65,
40_blockcore_construct_generate.md R110): with no reset applied, the code word fetched is decoded and executed or
rejected. -/

namespace Sys2Proof.Machine

variable {s t u : State}

theorem exec_bcNew_ready {key iv : List Byte} {r : BitVec 8} (h : s.ready) (hkey : key.length = 32)
    (hiv : iv.length = 8) (hr : r = 8#8 ∨ r = 12#8 ∨ r = 20#8) :
    exec (.bcNew key iv r) s = .next (s.keyLoaded key iv r) := by
  have hlegal : ¬legalRounds r = false := by rw [legalRounds_iff.2 hr]; decide
  simp only [exec, execBcNew, issue_of_ready h, if_neg (not_not.2 hkey), if_neg (not_not.2 hiv), if_neg hlegal,
    State.keyLoaded]

theorem exec_bcGen_ready (h : s.ready) (hk : s.KEYED = true) (counter : BitVec 64) :
    exec (.bcGen counter 64#16) s = .next (s.genStarted counter) := by
  have hkeyed : ¬s.KEYED = false := by rw [hk]; decide
  simp only [exec, execBcGen, issue_of_ready h, if_neg hkeyed, ne_eq, not_true_eq_false, if_false,
    State.genStarted]

theorem bufRead_getD (buf : List Byte) (off : Nat) {n j : Nat} (hj : j < n) :
    (bufRead buf off n).getD j 0#8 = buf.getD (off + j) 0#8 := by
  simp only [bufRead, List.getD_eq_getElem?_getD, List.getElem?_take_of_lt hj, List.getElem?_drop]

/-- Word `i` of a buffer that holds it, as the sum of its bytes (R52). -/
theorem bufWord_toNat {buf : List Byte} {i : Nat} (hi : 4 * i + 4 ≤ buf.length) :
    (bufWord buf i).toNat = (buf.getD (4 * i) 0#8).toNat + 2 ^ 8 * (buf.getD (4 * i + 1) 0#8).toNat +
      2 ^ 16 * (buf.getD (4 * i + 2) 0#8).toNat + 2 ^ 24 * (buf.getD (4 * i + 3) 0#8).toNat := by
  have hlen : (bufRead buf (4 * i) 4).length = 4 := bufRead_length _ _ _ hi
  rw [bufWord, le32Dec_toNat hlen, le_eq_sum, hlen]
  simp only [Finset.sum_range_succ, Finset.sum_range_zero, Nat.add_zero, bufRead_getD _ _ (show 0 < 4 by decide),
    bufRead_getD _ _ (show 1 < 4 by decide), bufRead_getD _ _ (show 2 < 4 by decide),
    bufRead_getD _ _ (show 3 < 4 by decide)]
  ring

/-- Settles O3: the words of `keySchedule`, each read at its place. -/
theorem bcNewLoadsState : Obligations.BcNewLoadsState := by
  intro s key iv r hready hkey hiv hr
  refine ⟨_, exec_bcNew_ready hready hkey hiv hr, rfl, rfl, rfl, rfl, rfl, rfl, rfl, fun i hi => ?_, fun i hi => ?_⟩
  · have hword : (keySchedule key iv)[4 + i]? = some (bufWord key i) := by
      interval_cases i <;> rfl
    rw [← bufWord_toNat (by omega)]
    exact congrArg (Option.map BitVec.toNat) hword
  · have hword : (keySchedule key iv)[14 + i]? = some (bufWord iv i) := by
      interval_cases i <;> rfl
    rw [← bufWord_toNat (by omega)]
    exact congrArg (Option.map BitVec.toNat) hword

/-- Settles O5: both checks pass. -/
theorem bcGenStartsScheduler : Obligations.BcGenStartsScheduler :=
  fun _ counter hready hk => exec_bcGen_ready hready hk counter

/-- Settles O33: every command is issued, and issuing tests `PH` first. -/
theorem busyCommandIsRefused : Obligations.BusyCommandIsRefused := by
  intro i s hi hbusy
  obtain ⟨work, hwork⟩ := exec_command hi
  rw [hwork s, issue_busy hbusy]

theorem step_of_reset (hr : s.resetAsserted = true) : step s = .next (applyReset s.dropPin) := by
  simp [step, fetch, hr]

/-- Settles O1: the reset input is tested before anything is fetched. -/
theorem resetEventRestoresResetState : Obligations.ResetEventRestoresResetState := by
  intro s pins hpin
  have hr : s.resetAsserted = true := by simp [State.resetAsserted, hpin]
  exact ⟨_, step_of_reset hr, by simp [hpin]⟩

theorem fetchWord_none (hidle : s.PH = .idle) (hq : s.pending = []) : fetchWord s = .idle s := by
  simp only [fetchWord, hidle, hq]

theorem fetchWord_packet {packet : List Byte} {rest : List (List Byte)} (hidle : s.PH = .idle)
    (hq : s.pending = packet :: rest) : fetchWord s = .word (.c8 packet) { s with pending := rest } := by
  simp only [fetchWord, hidle, hq]

theorem fetchWord_phase (hbusy : s.PH ≠ .idle) : fetchWord s = .word (.u3 s.PH.code) s := by
  obtain ⟨hidle, -⟩ | ⟨hidle, -⟩ | ⟨-, hf⟩ := fetchWord_cases s
  · exact absurd hidle hbusy
  · exact absurd hidle hbusy
  · exact hf

/-- With no reset applied a step executes what the code word fetched decodes to. -/
theorem step_of_decode {w : CodeWord} {i : Instr} (hr : s.resetAsserted = false)
    (hf : fetchWord s.dropPin = .word w u) (hd : decode u.cfg w = .instr i) : step s = exec i u := by
  simp [step, fetch, hr, hf, hd]

theorem step_of_decode_error {w : CodeWord} {e : DecodeError} (hr : s.resetAsserted = false)
    (hf : fetchWord s.dropPin = .word w u) (hd : decode u.cfg w = .error e) : step s = rejectWord e u := by
  simp [step, fetch, hr, hf, hd]

theorem step_of_fetchWord_idle (hr : s.resetAsserted = false) (hf : fetchWord s.dropPin = .idle u) :
    step s = .next u := by
  simp [step, fetch, hr, hf]

/-- The micro-step a phase selects (R85). -/
def Phase.microStep : Phase → Option Instr
  | .idle => none
  | .load => some .uLoad
  | .col => some .uCol
  | .diag => some .uDiag
  | .ffwd => some .uFfwd
  | .ser => some .uSer

theorem decode_phaseCode {p : Params} {ph : Phase} {i : Instr} (h : ph.microStep = some i) :
    decode p (.u3 ph.code) = .instr i := by
  cases ph <;> cases h <;> rfl

theorem step_of_phase {i : Instr} (hr : s.resetAsserted = false) (hi : s.PH.microStep = some i) :
    step s = exec i s.dropPin := by
  have hbusy : s.dropPin.PH ≠ .idle := fun h => by rw [← State.dropPin_PH, h] at hi; cases hi
  exact step_of_decode hr (fetchWord_phase hbusy) (decode_phaseCode hi)

/-- Settles O37: the packet is fetched, and its decoding executed. -/
theorem stepRunsDecodedCommand : Obligations.StepRunsDecodedCommand := by
  intro s packet rest i hidle hr hq hd
  exact step_of_decode hr (fetchWord_packet hidle hq) hd

/-- Settles O38: the code of the phase is fetched, and decodes to the phase's micro-step. -/
theorem stepRunsSelectedMicroStep : Obligations.StepRunsSelectedMicroStep := by
  intro s hr
  refine ⟨fun h => ?_, fun h => ?_, fun h => ?_, fun h => ?_, fun h => ?_⟩
  all_goals exact step_of_phase hr (by rw [h]; rfl)

/-- Settles O39: nothing is fetched, or what is fetched is rejected. -/
theorem stepIdlesOrRefuses : Obligations.StepIdlesOrRefuses := by
  intro s hidle hr
  constructor
  · intro hq
    exact step_of_fetchWord_idle hr (fetchWord_none hidle hq)
  · intro packet rest hq hd
    exact step_of_decode_error hr (fetchWord_packet hidle hq) hd

/-- Settles O36: such a packet is issued like a command, with `E_CMD` for its work. -/
theorem unassignedCommandWordFaults : Obligations.UnassignedCommandWordFaults := by
  intro s cmd record rest hidle hr hq hcmd
  rw [step_illegalCommand hr hidle hq (decode_illegalCommand_iff.2 (commandOf_eq_none_iff.2 hcmd))]
  exact ⟨fun hnoErr => issue_ready hidle hnoErr, fun herr => issue_err hidle herr⟩

/-- A ready command of the configuration passes its checks or takes a violation. -/
theorem exec_ready_answers {i : Instr} (hready : s.ready) (hwf : i.wellFormed s.cfg = true) :
    ∃ t, exec i s = .next t := by
  cases i with
  | bcNew key iv r =>
    by_cases hkey : key.length = 32
    · by_cases hiv : iv.length = 8
      · cases hr : legalRounds r with
        | false => exact ⟨_, exec_bcNew_rounds hready hkey hiv hr⟩
        | true => exact ⟨_, exec_bcNew_ready hready hkey hiv (legalRounds_iff.1 hr)⟩
      · exact ⟨_, exec_bcNew_ivLen hready hkey hiv⟩
    · exact ⟨_, exec_bcNew_keyLen hready hkey⟩
  | bcGen counter outLen =>
    cases hk : s.KEYED with
    | false => exact ⟨_, exec_bcGen_notKeyed hready hk⟩
    | true =>
      by_cases hout : outLen = 64#16
      · exact ⟨_, hout ▸ exec_bcGen_ready hready hk counter⟩
      · exact ⟨_, exec_bcGen_outLen hready hk hout⟩
  | cfDef => exact ⟨_, exec_cfDef_ready hready⟩
  | cfFromb v => exact ⟨_, exec_cfFromb_ready hready v⟩
  | cfTob => exact ⟨_, exec_cfTob_ready hready⟩
  | cfInc => exact ⟨_, exec_cfInc_ready hready⟩
  | cfCadd rhs =>
    obtain hfits | hover := Nat.lt_or_ge (s.CTR + rhs) s.cfg.modulus
    · exact ⟨_, exec_cfCadd_fits hready hfits⟩
    · exact ⟨_, exec_cfCadd_overflow hready hover⟩
  | cfEnc lanes =>
    have hlen : lanes.length = s.cfg.N := by simp_all [Instr.wellFormed]
    exact ⟨_, exec_cfEnc_ready hready hlen⟩
  | cfDec block =>
    by_cases hlen : block.length = s.cfg.B
    · exact ⟨_, exec_cfDec_ready hready hlen⟩
    · exact ⟨_, exec_cfDec_blkLen hready hlen⟩
  | uLoad | uCol | uDiag | uFfwd | uSer => exact ⟨_, rfl⟩

/-- With no BC.GEN in progress every command of the configuration answers. -/
theorem exec_idle_answers {i : Instr} (hi : i.isCommand = true) (hidle : s.PH = .idle)
    (hwf : i.wellFormed s.cfg = true) : ∃ t, exec i s = .next t := by
  cases herr : s.ERR with
  | false => exact exec_ready_answers ⟨hidle, herr⟩ hwf
  | true => exact ⟨_, exec_command_of_err hi hidle herr⟩

theorem decodePacket_ne_noMicroStep {p : Params} {packet : List Byte} :
    decodePacket p packet ≠ .error .noMicroStep := by
  cases packet with
  | nil => simp [decodePacket]
  | cons cmd record =>
    simp only [decodePacket]
    split
    · simp
    · split
      · split <;> simp
      · simp

/-- `s` after the reset input and the host's next packet are taken. -/
def State.packetTaken (s : State) : State := { s.dropPin with pending := s.pending.tail }

theorem fetchWord_packetTaken {packet : List Byte} {rest : List (List Byte)} (hidle : s.PH = .idle)
    (hq : s.pending = packet :: rest) : fetchWord s.dropPin = .word (.c8 packet) s.packetTaken := by
  rw [fetchWord_packet (s := s.dropPin) hidle hq, State.packetTaken, hq, List.tail_cons]

/-- A fetched packet is executed, or is `E_CMD`, or is no command. -/
theorem step_safe_of_packet {packet : List Byte} {rest : List (List Byte)} (hr : s.resetAsserted = false)
    (hidle : s.PH = .idle) (hq : s.pending = packet :: rest) : SafeAnswer (step s) := by
  have hfetch := fetchWord_packetTaken hidle hq
  cases hd : decode s.cfg (.c8 packet) with
  | instr i =>
    obtain ⟨_, _, _, -, -, -, hwf⟩ := decodePacket_instr hd
    obtain ⟨t, ht⟩ := exec_idle_answers (s := s.packetTaken) (decodePacket_isCommand hd) hidle hwf
    rw [step_of_decode hr hfetch hd, ht]
    trivial
  | error e =>
    rw [step_of_decode_error hr hfetch hd]
    cases e with
    | illegalCommand =>
      cases herr : s.ERR with
      | false =>
        rw [rejectWord, issue_ready (s := s.packetTaken) hidle herr]
        trivial
      | true =>
        rw [rejectWord, issue_err (s := s.packetTaken) hidle herr]
        trivial
    | malformedPacket => rfl
    | noMicroStep => exact absurd hd decodePacket_ne_noMicroStep

theorem Phase.exists_microStep {ph : Phase} (h : ph ≠ .idle) :
    ∃ i, ph.microStep = some i ∧ ∀ s : State, ∃ t, exec i s = .next t := by
  cases ph with
  | idle => exact absurd rfl h
  | load | col | diag | ffwd | ser => exact ⟨_, rfl, fun _ => ⟨_, rfl⟩⟩

/-- Settles O40: the reset event, an idle step and a micro-step always answer, a packet as in
`step_safe_of_packet`. -/
theorem stepIsSafe : Obligations.StepIsSafe := by
  intro s _
  cases hr : s.resetAsserted with
  | true =>
    rw [step_of_reset hr]
    trivial
  | false =>
    by_cases hidle : s.PH = .idle
    · cases hq : s.pending with
      | nil =>
        rw [step_of_fetchWord_idle hr (fetchWord_none hidle hq)]
        trivial
      | cons packet rest => exact step_safe_of_packet hr hidle hq
    · obtain ⟨i, hi, hexec⟩ := Phase.exists_microStep hidle
      obtain ⟨t, ht⟩ := hexec s.dropPin
      rw [step_of_phase hr hi, ht]
      trivial

end Sys2Proof.Machine
end

section
/-! What a step that answers can have done, said once: `StepEffect`. The rules of whole steps are read off its
cases and those of `Effect`. -/

namespace Sys2Proof.Machine

variable {i : Instr} {s t : State}

/-- How a step can take state `s` to a next state. -/
inductive StepEffect (s : State) : State → Prop
  | reset (hr : s.resetAsserted = true) : StepEffect s (applyReset s.dropPin)
  | idle (hidle : s.PH = .idle) (hq : s.pending = []) : StepEffect s s.dropPin
  | unassigned (hidle : s.PH = .idle) (hq : s.pending ≠ []) (hnoErr : s.ERR = false) :
      StepEffect s (s.packetTaken.violate .cmd)
  | unassignedTurnedAway (hidle : s.PH = .idle) (hq : s.pending ≠ []) (herr : s.ERR = true) :
      StepEffect s s.packetTaken.turnedAway
  | command {i : Instr} {t : State} (hi : i.isCommand = true) (hidle : s.PH = .idle) (hq : s.pending ≠ [])
      (heffect : Effect s.packetTaken i t) : StepEffect s t
  | microStep {i : Instr} {t : State} (hi : s.PH.microStep = some i) (hexec : exec i s.dropPin = .next t) :
      StepEffect s t

theorem step_packet_effect {packet : List Byte} {rest : List (List Byte)} (hr : s.resetAsserted = false)
    (hidle : s.PH = .idle) (hq : s.pending = packet :: rest) (h : step s = .next t) : StepEffect s t := by
  have hne : s.pending ≠ [] := by simp [hq]
  have hfetch := fetchWord_packetTaken hidle hq
  cases hd : decode s.cfg (.c8 packet) with
  | instr i =>
    rw [step_of_decode hr hfetch hd] at h
    exact .command (decodePacket_isCommand hd) hidle hne (exec_effect h)
  | error e =>
    rw [step_of_decode_error hr hfetch hd] at h
    cases e with
    | illegalCommand =>
      obtain ⟨-, ⟨herr, rfl⟩ | ⟨hnoErr, hraise⟩⟩ := issue_next h
      · exact .unassignedTurnedAway hidle hne herr
      · obtain rfl := raiseViolation_next hraise
        exact .unassigned hidle hne hnoErr
    | malformedPacket | noMicroStep => cases h

/-- Every next state of a step is one of the effects. -/
theorem step_effect (h : step s = .next t) : StepEffect s t := by
  cases hr : s.resetAsserted with
  | true =>
    rw [step_of_reset hr] at h
    cases h
    exact .reset hr
  | false =>
    by_cases hidle : s.PH = .idle
    · cases hq : s.pending with
      | nil =>
        rw [step_of_fetchWord_idle hr (fetchWord_none hidle hq)] at h
        cases h
        exact .idle hidle hq
      | cons packet rest => exact step_packet_effect hr hidle hq h
    · obtain ⟨i, hi, -⟩ := Phase.exists_microStep hidle
      rw [step_of_phase hr hi] at h
      exact .microStep hi h

theorem Effect.cfg_eq (h : Effect s i t) : t.cfg = s.cfg := by
  cases h <;> rfl

/-- Settles O41: neither the reset event nor an instruction writes the configuration. -/
theorem stepKeepsParameters : Obligations.StepKeepsParameters := by
  intro s t h
  cases step_effect h with
  | reset => exact State.applyReset_cfg s.dropPin
  | idle | unassigned | unassignedTurnedAway => rfl
  | command _ _ _ heffect => exact heffect.cfg_eq
  | microStep _ hexec => exact (exec_effect hexec).cfg_eq

/-- With a violation recorded the one effect of a command is to be turned away. -/
theorem Effect.eq_turnedAway (h : Effect s i t) (hi : i.isCommand = true) (herr : s.ERR = true) :
    t = s.turnedAway := by
  have hnotReady : ¬s.ready := by simp [herr]
  cases h with
  | turnedAway => rfl
  | violation | keyLoaded | genStarted | counterWritten | answered | blockEncoded =>
    exact absurd ‹s.ready› hnotReady
  | loaded | columnsMixed | diagonalsMixed | fedForward | serialized => cases hi

/-- Micro-steps write the scheduler's registers and `OUT` only. -/
theorem exec_microStep_keeps {ph : Phase} (hi : ph.microStep = some i) (h : exec i s = .next t) :
    t.ERR = s.ERR ∧ t.ERRCODE = s.ERRCODE ∧ t.S = s.S ∧ t.ROUNDS = s.ROUNDS ∧ t.KEYED = s.KEYED ∧
      t.CTR = s.CTR := by
  cases ph with
  | idle => cases hi
  | load | col | diag | ffwd | ser =>
    cases hi
    cases h
    exact ⟨rfl, rfl, rfl, rfl, rfl, rfl⟩

/-- No BC.GEN is in progress on a violation (R101, R241). -/
theorem State.Inv.idle_of_err (h : s.Inv) (herr : s.ERR = true) : s.PH = .idle := by
  have hprog := h.progress
  cases hp : s.PH with
  | idle => rfl
  | load | col | diag | ffwd | ser => simp [State.Progress, hp, State.generating, herr] at hprog

/-- What a step answers with a violation recorded, no BC.GEN in progress and no reset applied. -/
theorem step_eq_of_err (h : step s = .next t) (hr : s.resetAsserted = false) (herr : s.ERR = true)
    (hidle : s.PH = .idle) : t = if s.pending = [] then s.dropPin else s.packetTaken.turnedAway := by
  cases step_effect h with
  | reset hreset => simp [hr] at hreset
  | idle _ hq => rw [if_pos hq]
  | unassigned _ _ hnoErr => simp [herr] at hnoErr
  | unassignedTurnedAway _ hq => rw [if_neg hq]
  | command hi _ hq heffect => rw [if_neg hq, heffect.eq_turnedAway hi herr]
  | microStep hi => rw [hidle] at hi; cases hi

/-- Settles O35: with no BC.GEN in progress a step turns the host's packet away, if there is one; a micro-step,
which no state of the invariant has then, writes none of these registers. -/
theorem errIsSticky : Obligations.ErrIsSticky := by
  intro s t herr hr h
  constructor
  · by_cases hidle : s.PH = .idle
    · rw [step_eq_of_err h hr herr hidle]
      split <;> exact ⟨herr, rfl, rfl, rfl, rfl, rfl⟩
    · obtain ⟨i, hi, -⟩ := Phase.exists_microStep hidle
      rw [step_of_phase hr hi] at h
      obtain ⟨hkept, hrest⟩ := exec_microStep_keeps hi h
      exact ⟨hkept.trans herr, hrest⟩
  · intro hinv
    rw [step_eq_of_err h hr herr (hinv.idle_of_err herr)]
    by_cases hq : s.pending = []
    · simp [hq, State.dropPin]
    · simp [hq, State.packetTaken, State.turnedAway, State.dropPin]

end Sys2Proof.Machine
end

section
/-! The invariant (10_state.md R22 to R30; 40_blockcore_construct_generate.md R111 to R116): the state after reset
meets it, and each effect of a step keeps it. What an effect does not write carries over; what is left is the
part of the invariant it writes. -/

namespace Sys2Proof.Machine

variable {i : Instr} {s t : State}

/-! What the progress of each phase says. -/

theorem State.progress_load (hp : s.PH = .load) : s.Progress ↔ s.generating ∧ s.DR = 0#4 := by
  simp only [State.Progress, hp]

theorem State.progress_col (hp : s.PH = .col) :
    s.Progress ↔ s.generating ∧ s.DR.toNat < doubleRoundCount s.ROUNDS ∧ s.X = doubleRounds s.DR.toNat s.X0 := by
  simp only [State.Progress, hp]

theorem State.progress_diag (hp : s.PH = .diag) :
    s.Progress ↔ s.generating ∧ s.DR.toNat < doubleRoundCount s.ROUNDS ∧
      s.X = colRound (doubleRounds s.DR.toNat s.X0) := by
  simp only [State.Progress, hp]

theorem State.progress_ffwd (hp : s.PH = .ffwd) :
    s.Progress ↔ s.generating ∧ s.DR.toNat = doubleRoundCount s.ROUNDS ∧ s.X = doubleRounds s.DR.toNat s.X0 := by
  simp only [State.Progress, hp]

theorem State.progress_ser (hp : s.PH = .ser) :
    s.Progress ↔ s.generating ∧ s.DR.toNat = doubleRoundCount s.ROUNDS ∧
      s.X = feedForward (doubleRounds s.DR.toNat s.X0) s.X0 := by
  simp only [State.Progress, hp]

/-- Right after reset the invariant asks for nothing but a configuration and buffers in form. -/
theorem State.Inv.of_reset (hparams : s.cfg.WF) (hbuffers : s.Buffers) (hkeyed : s.KEYED = false)
    (hctr : s.CTR = 0) (herr : s.ERR = false) (hcode : s.ERRCODE = 0#4) (hidle : s.PH = .idle) (hDR : s.DR = 0#4) :
    s.Inv where
  params := hparams
  counter := hctr ▸ s.cfg.modulus_pos
  keyed := fun h => absurd h (by simp [hkeyed])
  err := ⟨fun h => absurd h (by simp [herr]), fun _ => hcode⟩
  progress := (State.progress_idle hidle).2 hDR
  buffers := hbuffers

theorem State.inv_resetOf {p : Params} (hp : p.WF) (e : Nat) : (State.resetOf p e).Inv := by
  refine .of_reset hp ⟨List.Pairwise.nil, ?_, List.Pairwise.nil, ?_⟩ rfl rfl rfl rfl rfl rfl
  · intro c hc; cases hc
  · intro c hc; cases hc

/-- Settles O2: in the state after reset only the registers the spec leaves free are not fixed. -/
theorem resetStateMeetsInvariant : Obligations.ResetStateMeetsInvariant :=
  ⟨fun _ e hp => ⟨State.inv_resetOf hp e, ⟨rfl, rfl⟩, rfl, rfl⟩, State.inv_resetOf (by decide) 0, rfl, rfl⟩

theorem State.Inv.afterReset (h : s.Inv) : (applyReset s).Inv :=
  .of_reset h.params
    (h.buffers.of_eq (State.applyReset_OUT s) (State.applyReset_BLKO s) (State.applyReset_cfg s))
    rfl rfl rfl rfl rfl rfl

/-- The host's side is no part of the invariant. -/
theorem State.Inv.withHost (h : s.Inv) (pending : List (List Byte)) (responses : List Response)
    (resetPin : List Bool) :
    State.Inv { s with pending := pending, responses := responses, resetPin := resetPin } :=
  { h with
    keyed := fun hk => (h.keyed hk).of_eq rfl rfl
    progress := h.progress.of_eq rfl rfl rfl rfl rfl rfl rfl rfl
    buffers := h.buffers.of_eq rfl rfl rfl }

theorem State.Inv.respond (h : s.Inv) (r : Response) : (s.respond r).Inv := h.withHost _ _ _

theorem State.Inv.dropPin (h : s.Inv) : s.dropPin.Inv := h.withHost _ _ _

theorem State.Inv.packetTaken (h : s.Inv) : s.packetTaken.Inv := h.withHost _ _ _

theorem State.Inv.violate (h : s.Inv) (hidle : s.PH = .idle) (v : Violation) : (s.violate v).Inv :=
  { h with
    keyed := fun hk => (h.keyed hk).of_eq rfl rfl
    err := ⟨fun _ => v.code_range, fun hnoErr => absurd hnoErr (by simp)⟩
    progress := (State.progress_idle (s := s.violate v) hidle).2 ((State.progress_idle hidle).1 h.progress)
    buffers := h.buffers.of_eq rfl rfl rfl }

theorem State.Inv.keyLoaded (h : s.Inv) (hidle : s.PH = .idle) (key iv : List Byte) {r : BitVec 8}
    (hr : r = 8#8 ∨ r = 12#8 ∨ r = 20#8) : (s.keyLoaded key iv r).Inv :=
  { h with
    keyed := fun _ => ⟨rfl, rfl, rfl, rfl, rfl, rfl, hr⟩
    progress := (State.progress_idle (s := s.keyLoaded key iv r) hidle).2 ((State.progress_idle hidle).1 h.progress)
    buffers := h.buffers.of_eq rfl rfl rfl }

theorem State.Inv.writeCtr (h : s.Inv) (v : Nat) : (s.writeCtr v).Inv :=
  { h with
    counter := Nat.mod_lt _ s.cfg.modulus_pos
    keyed := fun hk => (h.keyed hk).of_eq rfl rfl
    progress := h.progress.of_eq rfl rfl rfl rfl rfl rfl rfl rfl
    buffers := h.buffers.of_eq rfl rfl rfl }

theorem State.Inv.blockEncoded (h : s.Inv) {lanes : List Nat} (hlen : lanes.length = s.cfg.N) :
    (s.blockEncoded lanes).Inv :=
  { h with
    keyed := fun hk => (h.keyed hk).of_eq rfl rfl
    progress := h.progress.of_eq rfl rfl rfl rfl rfl rfl rfl rfl
    buffers :=
      { h.buffers with
        blkoWf := Memory.writeBytes_wf _ _ _ h.buffers.blkoWf
        blkoWithin := Memory.writeBytes_within _ _ _ _ h.buffers.blkoWithin (by simp [hlen, Params.B]) } }

/-- A write of the scheduler's registers keeps the invariant when the progress they tell is right. -/
theorem State.Inv.withScratch (h : s.Inv) {x : RegFile} {c : BitVec 64} {ph : Phase} {dr : BitVec 4}
    (hprog : State.Progress { s with X := x, CNT := c, PH := ph, DR := dr }) :
    State.Inv { s with X := x, CNT := c, PH := ph, DR := dr } :=
  { h with
    keyed := fun hk => (h.keyed hk).of_eq rfl rfl
    progress := hprog
    buffers := h.buffers.of_eq rfl rfl rfl }

theorem State.Inv.genStarted (h : s.Inv) (hready : s.ready) (hk : s.KEYED = true) (counter : BitVec 64) :
    (s.genStarted counter).Inv :=
  h.withScratch ⟨⟨hk, hready.2⟩, (State.progress_idle hready.1).1 h.progress⟩

theorem State.Inv.withOut (h : s.Inv) (bs : List Byte) (hlen : bs.length = 64) :
    State.Inv { s with OUT := s.OUT.writeBytes 0 bs } :=
  { h with
    keyed := fun hk => (h.keyed hk).of_eq rfl rfl
    progress := h.progress.of_eq rfl rfl rfl rfl rfl rfl rfl rfl
    buffers :=
      { h.buffers with
        outWf := Memory.writeBytes_wf _ _ _ h.buffers.outWf
        outWithin := Memory.writeBytes_within _ _ _ _ h.buffers.outWithin (by simp [hlen]) } }

/-- Every effect of a command keeps the invariant. -/
theorem Effect.inv (h : Effect s i t) (hi : i.isCommand = true) (hs : s.Inv) : t.Inv := by
  cases h with
  | turnedAway => exact hs.respond _
  | violation v hready => exact hs.violate hready.1 v
  | keyLoaded hready hr => exact hs.keyLoaded hready.1 _ _ hr
  | genStarted hready hk => exact hs.genStarted hready hk _
  | counterWritten => exact (hs.writeCtr _).respond _
  | answered => exact hs.respond _
  | blockEncoded _ hlen => exact hs.blockEncoded hlen
  | loaded | columnsMixed | diagonalsMixed | fedForward | serialized => cases hi

theorem State.Inv.intoCol (h : s.Inv) {x : RegFile} {dr : BitVec 4} (hgen : s.generating)
    (hlt : dr.toNat < doubleRoundCount s.ROUNDS) (hx : x = doubleRounds dr.toNat s.X0) :
    State.Inv { s with X := x, DR := dr, PH := .col } :=
  h.withScratch ((State.progress_col rfl).2 ⟨hgen, hlt, hx⟩)

theorem State.Inv.intoDiag (h : s.Inv) {x : RegFile} (hgen : s.generating)
    (hlt : s.DR.toNat < doubleRoundCount s.ROUNDS) (hx : x = colRound (doubleRounds s.DR.toNat s.X0)) :
    State.Inv { s with X := x, PH := .diag } :=
  h.withScratch ((State.progress_diag rfl).2 ⟨hgen, hlt, hx⟩)

theorem State.Inv.intoFfwd (h : s.Inv) {x : RegFile} {dr : BitVec 4} (hgen : s.generating)
    (hdone : dr.toNat = doubleRoundCount s.ROUNDS) (hx : x = doubleRounds dr.toNat s.X0) :
    State.Inv { s with X := x, DR := dr, PH := .ffwd } :=
  h.withScratch ((State.progress_ffwd rfl).2 ⟨hgen, hdone, hx⟩)

theorem State.Inv.intoSer (h : s.Inv) {x : RegFile} (hgen : s.generating)
    (hdone : s.DR.toNat = doubleRoundCount s.ROUNDS)
    (hx : x = feedForward (doubleRounds s.DR.toNat s.X0) s.X0) :
    State.Inv { s with X := x, PH := .ser } :=
  h.withScratch ((State.progress_ser rfl).2 ⟨hgen, hdone, hx⟩)

theorem execULoad_inv (hs : s.Inv) (hp : s.PH = .load) (h : execULoad s = .next t) : t.Inv := by
  obtain ⟨hgen, -⟩ := (State.progress_load hp).1 hs.progress
  obtain ⟨-, hmin, -⟩ := doubleRoundCount_legal (hs.keyed hgen.1).rounds
  have hpos : 0 < doubleRoundCount s.ROUNDS := by omega
  cases h
  exact hs.intoCol hgen hpos (doubleRounds_zero _).symm

theorem execUCol_inv (hs : s.Inv) (hp : s.PH = .col) (h : execUCol s = .next t) : t.Inv := by
  obtain ⟨hgen, hlt, hX⟩ := (State.progress_col hp).1 hs.progress
  cases h
  exact hs.intoDiag hgen hlt (congrArg colRound hX)

theorem execUDiag_inv (hs : s.Inv) (hp : s.PH = .diag) (h : execUDiag s = .next t) : t.Inv := by
  obtain ⟨hgen, hlt, hX⟩ := (State.progress_diag hp).1 hs.progress
  obtain ⟨-, -, hmax⟩ := doubleRoundCount_legal (hs.keyed hgen.1).rounds
  have hDR := toNat_succ_of_lt (dr := s.DR) (by omega)
  have hX' : diagRound s.X = doubleRounds (s.DR + 1#4).toNat s.X0 := by rw [hDR, doubleRounds_succ, hX]
  cases h
  by_cases hdone : (s.DR + 1#4).toNat = doubleRoundCount s.ROUNDS
  · rw [afterDiag, if_pos hdone]
    exact hs.intoFfwd hgen hdone hX'
  · rw [afterDiag, if_neg hdone]
    exact hs.intoCol hgen (by omega) hX'

theorem execUFfwd_inv (hs : s.Inv) (hp : s.PH = .ffwd) (h : execUFfwd s = .next t) : t.Inv := by
  obtain ⟨hgen, hdone, hX⟩ := (State.progress_ffwd hp).1 hs.progress
  cases h
  exact hs.intoSer hgen hdone (congrArg (feedForward · s.X0) hX)

theorem execUSer_inv (hs : s.Inv) (h : execUSer s = .next t) : t.Inv := by
  cases h
  have hidle : State.Inv { s with PH := .idle, DR := 0#4 } := hs.withScratch rfl
  exact (hidle.withOut _ (serialize_length s.X)).respond _

/-- The micro-step a phase selects keeps the invariant. -/
theorem exec_microStep_inv (hs : s.Inv) (hi : s.PH.microStep = some i) (h : exec i s = .next t) : t.Inv := by
  cases hp : s.PH <;> rw [hp] at hi <;> cases hi
  case load => exact execULoad_inv hs hp h
  case col => exact execUCol_inv hs hp h
  case diag => exact execUDiag_inv hs hp h
  case ffwd => exact execUFfwd_inv hs hp h
  case ser => exact execUSer_inv hs h

/-- Settles O54: every effect of a step keeps the invariant. -/
theorem stepKeepsInvariant : Obligations.StepKeepsInvariant := by
  intro s t hs h
  cases step_effect h with
  | reset => exact hs.dropPin.afterReset
  | idle => exact hs.dropPin
  | unassigned hidle => exact hs.packetTaken.violate hidle .cmd
  | unassignedTurnedAway => exact hs.packetTaken.respond _
  | command hi _ _ heffect => exact heffect.inv hi hs.packetTaken
  | microStep hi hexec => exact exec_microStep_inv hs.dropPin hi hexec

end Sys2Proof.Machine
end

section
/-! A block generation as a whole (R101 to R103, R116 to R119): until U.SER its steps write the scheduler's registers
only and count down to it, and what U.SER returns the invariant tells. -/

namespace Sys2Proof.Machine

variable {s t u : State}

/-- Settles O51: only U.SER writes `OUT` and responds, and it leaves the scheduler idle. -/
theorem generationIsInvisibleUntilItReturns : Obligations.GenerationIsInvisibleUntilItReturns := by
  intro s t hbusy hr h ht
  obtain ⟨i, hi, -⟩ := Phase.exists_microStep hbusy
  rw [step_of_phase hr hi] at h
  cases hp : s.PH with
  | idle => exact absurd hp hbusy
  | load | col | diag | ffwd =>
    rw [hp] at hi
    cases hi
    cases h
    rfl
  | ser =>
    rw [hp] at hi
    cases hi
    cases h
    exact absurd rfl ht

/-- The phase and `DR` after a micro-step: its sequence (R116). -/
def Phase.advance (ph : Phase) (dr : BitVec 4) (rounds : BitVec 8) : Phase × BitVec 4 :=
  match ph with
  | .idle => (.idle, dr)
  | .load => (.col, 0#4)
  | .col => (.diag, dr)
  | .diag => (afterDiag (dr + 1#4) rounds, dr + 1#4)
  | .ffwd => (.ser, dr)
  | .ser => (.idle, 0#4)

theorem Phase.advance_ne_idle {ph : Phase} (hbusy : ph ≠ .idle) (hser : ph ≠ .ser) (dr : BitVec 4)
    (rounds : BitVec 8) : (ph.advance dr rounds).1 ≠ .idle := by
  cases ph with
  | idle => exact absurd rfl hbusy
  | ser => exact absurd rfl hser
  | diag => exact afterDiag_ne_idle _ _
  | load | col | ffwd => simp [Phase.advance]

theorem step_advance (hbusy : s.PH ≠ .idle) (hr : s.resetAsserted = false) :
    ∃ t, step s = .next t ∧ (t.PH, t.DR) = s.PH.advance s.DR s.ROUNDS := by
  obtain ⟨i, hi, -⟩ := Phase.exists_microStep hbusy
  rw [step_of_phase hr hi]
  cases hp : s.PH with
  | idle => exact absurd hp hbusy
  | load | col | diag | ffwd | ser =>
    rw [hp] at hi
    cases hi
    exact ⟨_, rfl, rfl⟩

/-- Settles O52: the next phase and `DR` are `Phase.advance` of the present ones and `ROUNDS`. -/
theorem scheduleIgnoresData : Obligations.ScheduleIgnoresData := by
  intro s u hbusy hPH hDR hR hsr hur
  obtain ⟨t, ht, htNext⟩ := step_advance hbusy hsr
  obtain ⟨v, hv, hvNext⟩ := step_advance (hPH ▸ hbusy) hur
  rw [hPH, hDR, hR, ← htNext] at hvNext
  obtain ⟨hph, hdr⟩ := Prod.mk.inj hvNext
  exact ⟨t, v, ht, hv, hph.symm, hdr.symm⟩

/-- The micro-steps still to come in a phase, with `dr` double-rounds done (R117). -/
def Phase.stepsLeft (ph : Phase) (dr : BitVec 4) (rounds : BitVec 8) : Nat :=
  match ph with
  | .idle => 0
  | .load => 2 * doubleRoundCount rounds + 3
  | .col => 2 * (doubleRoundCount rounds - dr.toNat) + 2
  | .diag => 2 * (doubleRoundCount rounds - dr.toNat) + 1
  | .ffwd => 2
  | .ser => 1

theorem Phase.stepsLeft_pos {ph : Phase} (h : ph ≠ .idle) (dr : BitVec 4) (rounds : BitVec 8) :
    0 < ph.stepsLeft dr rounds := by
  cases ph with
  | idle => exact absurd rfl h
  | load | col | diag | ffwd | ser => simp [Phase.stepsLeft]

/-- The loop test ends the loop exactly when no double-round is left. -/
theorem afterDiag_stepsLeft {dr : BitVec 4} {rounds : BitVec 8} (hlt : dr.toNat < doubleRoundCount rounds)
    (hmax : doubleRoundCount rounds ≤ 10) :
    (afterDiag (dr + 1#4) rounds).stepsLeft (dr + 1#4) rounds = 2 * (doubleRoundCount rounds - dr.toNat) := by
  have hDR := toNat_succ_of_lt (dr := dr) (by omega)
  unfold afterDiag
  split
  · simp only [Phase.stepsLeft]
    omega
  · simp only [Phase.stepsLeft]
    omega

/-- Each micro-step of a BC.GEN of the invariant leaves one micro-step less to do. -/
theorem State.Inv.stepsLeft_advance (hs : s.Inv) (hbusy : s.PH ≠ .idle) :
    (s.PH.advance s.DR s.ROUNDS).1.stepsLeft (s.PH.advance s.DR s.ROUNDS).2 s.ROUNDS + 1 =
      s.PH.stepsLeft s.DR s.ROUNDS := by
  cases hp : s.PH with
  | idle => exact absurd hp hbusy
  | diag =>
    obtain ⟨⟨hk, -⟩, hlt, -⟩ := (State.progress_diag hp).1 hs.progress
    obtain ⟨-, -, hmax⟩ := doubleRoundCount_legal (hs.keyed hk).rounds
    exact congrArg (· + 1) (afterDiag_stepsLeft hlt hmax)
  | load | col | ffwd | ser => simp [Phase.advance, Phase.stepsLeft]

theorem State.Inv.keyed_of_busy (hs : s.Inv) (hbusy : s.PH ≠ .idle) : s.KEYED = true := by
  have hprog := hs.progress
  cases hp : s.PH with
  | idle => exact absurd hp hbusy
  | load | col | diag | ffwd | ser =>
    simp only [State.Progress, hp] at hprog
    exact hprog.1.1

theorem State.Inv.stepsLeft_le (hs : s.Inv) (hbusy : s.PH ≠ .idle) : s.PH.stepsLeft s.DR s.ROUNDS ≤ 23 := by
  obtain ⟨-, -, hmax⟩ := doubleRoundCount_legal (hs.keyed (hs.keyed_of_busy hbusy)).rounds
  cases s.PH <;> simp only [Phase.stepsLeft] <;> omega

/-- The loop of R101 does its double-rounds from the first on, the invariant counts them to the last. -/
theorem tableRounds_eq_doubleRounds (n : Nat) (x : RegFile) : tableRounds n x = doubleRounds n x := by
  have hshift (n : Nat) (x : RegFile) : doubleRounds n (doubleRound x) = doubleRounds (n + 1) x := by
    induction n with
    | zero => rfl
    | succ n ih => rw [doubleRounds, ih, ← doubleRounds]
  induction n generalizing x with
  | zero => rfl
  | succ n ih => rw [tableRounds_succ, tableRound_colTable, tableRound_diagTable, ih, ← doubleRound, hshift]

theorem State.Inv.serialize_eq (hs : s.Inv) (hp : s.PH = .ser) :
    serialize s.X = blockBytes s.S s.ROUNDS s.CNT := by
  obtain ⟨-, hdone, hX⟩ := (State.progress_ser hp).1 hs.progress
  rw [hX, hdone, ← tableRounds_eq_doubleRounds, State.X0, blockBytes]

/-- A BC.GEN in progress returns the block of R101 after the micro-steps left. -/
theorem run_stepsLeft (n : Nat) (hs : s.Inv) (hbusy : s.PH ≠ .idle) (hr : s.resetPin = [])
    (hn : s.PH.stepsLeft s.DR s.ROUNDS = n) :
    ∃ t, Host.Core.run core n s = .next t ∧ t.PH = .idle ∧
      t.responses = s.responses ++ [.ok (.bytes (blockBytes s.S s.ROUNDS s.CNT))] := by
  induction n generalizing s with
  | zero => exact absurd hn (Phase.stepsLeft_pos hbusy _ _).ne'
  | succ n ih =>
    by_cases hser : s.PH = .ser
    · have hone : n = 0 := by simpa [hser, Phase.stepsLeft] using hn.symm
      have hrun : Host.Core.run core (n + 1) s = execUSer s := by
        rw [hone, run_succ (step_ser hr hser), run_zero]
        rfl
      refine ⟨_, hrun, rfl, ?_⟩
      rw [← hs.serialize_eq hser]
      rfl
    · have hnr := State.resetAsserted_of_resetPin_nil hr
      obtain ⟨t, ht, hadvance⟩ := step_advance hbusy hnr
      have htbusy : t.PH ≠ .idle := by
        have hnext := Phase.advance_ne_idle hbusy hser s.DR s.ROUNDS
        rwa [← hadvance] at hnext
      have hframe := generationIsInvisibleUntilItReturns s t hbusy hnr ht htbusy
      have hleft := hs.stepsLeft_advance hbusy
      rw [← hadvance, hn] at hleft
      rw [run_succ ht]
      have hR : t.ROUNDS = s.ROUNDS := by rw [hframe]
      have hS : t.S = s.S := by rw [hframe]
      have hC : t.CNT = s.CNT := by rw [hframe]
      have hresp : t.responses = s.responses := by rw [hframe]
      have hpin : t.resetPin = [] := by rw [hframe, hr, List.tail_nil]
      have hrest := ih (stepKeepsInvariant s t hs ht) htbusy hpin (by rw [hR]; exact Nat.succ.inj hleft)
      rwa [hR, hS, hC, hresp] at hrest

/-- Settles O53: the micro-steps left are at most the 23 of twenty rounds. -/
theorem generationTerminates : Obligations.GenerationTerminates := by
  intro s hs hbusy hr
  obtain ⟨t, hrun, hidle, hresp⟩ := run_stepsLeft _ hs hbusy hr rfl
  exact ⟨_, t, hs.stepsLeft_le hbusy, hrun, hidle, hresp, blockBytes_length _ _ _⟩

/-- `s` after a BC.GEN performed in one step (R101). -/
def State.blockAnswered (s : State) (counter : BitVec 64) : State :=
  ({ s with OUT := s.OUT.writeBytes 0 (blockBytes s.S s.ROUNDS counter) } : State).respond
    (.ok (.bytes (blockBytes s.S s.ROUNDS counter)))

theorem genCommand_ready (hready : s.ready) (hk : s.KEYED = true) (counter : BitVec 64) :
    genCommand counter 64#16 s = .next (s.blockAnswered counter) := by
  have hkeyed : ¬s.KEYED = false := by rw [hk]; decide
  simp only [genCommand, issue_of_ready hready, if_neg hkeyed, ne_eq, not_true_eq_false, if_false,
    State.blockAnswered]

/-- The micro-steps end where the command level does, but for `CNT` and `X` (R118). -/
theorem State.blockReturned_genStarted (hidle : s.PH = .idle) (hDR : s.DR = 0#4) (counter : BitVec 64) :
    (s.genStarted counter).blockReturned =
      { s.blockAnswered counter with CNT := counter, X := (s.genStarted counter).blockReturned.X } := by
  simp [State.blockReturned, State.blockAnswered, State.genStarted, State.respond, hidle, hDR]

/-- Settles O55: the run ends in `blockReturned`, and `DR` is zero before it, as the scheduler is idle, and after. -/
theorem schedulerRefinesBcGen : Obligations.SchedulerRefinesBcGen := by
  intro s counter packet rest hs hready hk hr hq henc
  have hDR : s.DR = 0#4 := (State.progress_idle hready.1).1 hs.progress
  have hrun := run_bcGen hready hk (hs.keyed hk).rounds hr hq (decode_of_encode_bcGen henc)
  have hfinal := State.blockReturned_genStarted (s := { s with pending := rest }) hready.1 hDR counter
  refine ⟨_, State.blockAnswered { s with pending := rest } counter, hrun.trans (congrArg _ hfinal),
    genCommand_ready (s := { s with pending := rest }) hready hk counter, ?_⟩
  simp [State.blockAnswered]

/-- Settles O56: BC.NEW's step loads the key schedule, from which BC.GEN's run returns the block. -/
theorem newThenGenReturnsKeystreamBlock : Obligations.NewThenGenReturnsKeystreamBlock := by
  intro s key iv r counter newPacket genPacket rest hready hr hkey hiv hrounds hnew hgen hq
  have hwf : (Instr.bcNew key iv r).wellFormed s.cfg = true := by simp [Instr.wellFormed, hkey, hiv]
  have hdecode : decode s.cfg (.c8 newPacket) = .instr (.bcNew key iv r) := hnew ▸ decodeOfEncode s.cfg _ hwf
  have hstep : step s = .next (State.keyLoaded { s with pending := genPacket :: rest } key iv r) := by
    rw [step_packet hr hready.1 hq hdecode]
    exact exec_bcNew_ready hready hkey hiv hrounds
  have hrun := run_bcGen (s := State.keyLoaded { s with pending := genPacket :: rest } key iv r) hready rfl hrounds
    hr rfl (decode_of_encode_bcGen hgen)
  refine ⟨_, (run_succ hstep).trans hrun, rfl, ?_⟩
  simp [State.keyLoaded, keystreamBlock]

end Sys2Proof.Machine
end
